-- ==== Sys2Proof/Word.lean ====
section
/-! DEFINITION. The byte, the unit of every access (spec/00_scope.md R8, spec/20_memory.md R29). -/

namespace Sys2Proof

/-- A byte: an unsigned integer from 0 to 255, bits numbered 7 (most significant) to 0 (R8). -/
abbrev Byte := BitVec 8

end Sys2Proof
end

