-- ==== Sys2Proof/Config.lean ====
section
/-! DEFINITION. The parameters of the block (spec/00_scope.md R4, R5), and the free values
(spec/93_implementation_defined.md U2, U3, U4): constants with no body, so that nothing can be proved of
the value they give. -/

namespace Sys2Proof

/-- The parameters fixed for the life of the block (R4, R18). `N_STEPS` is the length of `initCmd` (R5).
DESIGN CHOICE (log 3): they travel in `State.cfg`, so that one step function serves every choice of them. -/
structure Config where
  /-- `CAP`: accumulator capacity in bytes (R4, decision D22). -/
  cap : Nat := 64
  /-- `INIT_CMD[0 .. N_STEPS-1]`: the payload of each initialization step (R5, decision D21). -/
  initCmd : List (List Byte)
  /-- `NAK_OK_STEP`: the one step that also advances on a negative-acknowledgement (R4). -/
  nakOkStep : Nat
  /-- `TIME_W`: width of the millisecond counter (R6, decision D17). -/
  timeW : Nat := 32
  /-- `STRICT_CHECKSUM` (R60, decision D20). -/
  strictChecksum : Bool := false
  /-- `SOLE_BYTE_DEFERRED` (R72, conflict C1, decision D7). -/
  soleByteDeferred : Bool := false
deriving DecidableEq, Repr

/-- Configuration `TC` of spec/92_eei_decisions.md: the only concrete choice of the open parameters the spec
names; it is for testing and is not the device's list.
DESIGN CHOICE (log 4): `State.reset` carries it; no statement rests on its values. -/
def Config.tc : Config where
  initCmd := [[0x46#8, 0x38#8], [0x41#8, 0xC2#8], [0x46#8, 0x31#8]]
  nakOkStep := 1

/-- The byte an accumulator cell holds when nothing has written it since the reset of this epoch
(U4, decision D13): any value. Arguments: the epoch and the index. -/
opaque Config.freeByte : Nat → Nat → Byte

/-- What RST leaves in `t_action` (U2, decision D12): any value. Argument: the draw. -/
opaque Config.freeTime : Nat → Nat

/-- `connected` while `t_contact` is `NONE` (U3, decision D12): a free draw. Argument: the draw. -/
opaque Config.freeConnected : Nat → Bool

end Sys2Proof
end

