-- ==== Sys2Proof/Machine/Wire.lean ====
section
/-! DEFINITION. The wire constants and intervals (spec/00_scope.md R3, R4), the two computed values of the
block, `sum8` with `cks` and `elapsed` (spec/30_encoding.md R43, spec/00_scope.md R6), and the constraints on
the parameters (R4, R5). -/

namespace Sys2Proof

/-- Start marker (R3). -/
def STX : Byte := 0x02#8
/-- End marker (R3). -/
def ETX : Byte := 0x03#8
/-- The byte that replaces a checksum equal to `ETX` (R3, R43). -/
def ESC : Byte := 0x05#8
/-- Acknowledgement (R3). -/
def ACK : Byte := 0x06#8
/-- Negative-acknowledgement (R3). -/
def NAK : Byte := 0x15#8

/-- The acknowledgement timeout in ms (R4). -/
def T_RETRY : Nat := 1000
/-- The contact interval in ms (R4). -/
def T_CONN : Nat := 10000

/-- The sum of the bytes modulo 256; 0 for the empty sequence (R8, R64). -/
def sum8 : List Byte → Byte
  | [] => 0#8
  | b :: p => b + sum8 p

/-- The transmitted checksum: `ESC` in place of a raw sum equal to `ETX` (R43). -/
def cks (p : List Byte) : Byte :=
  if sum8 p = ETX then ESC else sum8 p

/-- `N_STEPS` (R4, R5). -/
def Config.nSteps (c : Config) : Nat := c.initCmd.length

/-- `MAX_PAYLOAD = CAP - 3` (R4, decision D4). -/
def Config.maxPayload (c : Config) : Nat := c.cap - 3

/-- What a `TIME_W`-bit port carries of a count: its value modulo `2^TIME_W` (R6). -/
def Config.time (c : Config) (t : Nat) : Nat := t % 2 ^ c.timeW

/-- `elapsed(t) = (now - t) mod 2^TIME_W` (R6). -/
def elapsed (c : Config) (now t : Nat) : Nat :=
  (now + (2 ^ c.timeW - t % 2 ^ c.timeW)) % 2 ^ c.timeW

/-- The payloads of the command table are pairwise distinct (R5). -/
def distinctPayloads : List (List Byte) → Bool
  | [] => true
  | p :: ps => !ps.contains p && distinctPayloads ps

/-- The constraints R4 and R5 put on the parameters: `CAP >= 5`, `N_STEPS >= 1`, `NAK_OK_STEP < N_STEPS`, every
command at most `MAX_PAYLOAD` bytes, the commands pairwise distinct. -/
def Config.wf (c : Config) : Bool :=
  decide (5 ≤ c.cap) && decide (1 ≤ c.nSteps) && decide (c.nakOkStep < c.nSteps)
    && c.initCmd.all (fun p => decide (p.length ≤ c.maxPayload)) && distinctPayloads c.initCmd

end Sys2Proof
end

