-- ==== Sys2Proof/Syntax.lean ====
section
/-! DEFINITION. The operations of the block: one constructor per row of spec/opcode_table.json
(spec/30_encoding.md R45). `now` is not an operand here: it is the input port `State.now`, which every operation
samples (spec/00_scope.md R6). -/

namespace Sys2Proof

/-- An operation with its operands. -/
inductive Instr where
  /-- ENC, encode a payload into a frame (R56). -/
  | enc (p : List Byte)
  /-- DEC, decode a raw frame (R58). -/
  | dec (r : List Byte)
  /-- RXB.OVF, a byte arrives at a full accumulator (R66). -/
  | rxbOvf (b : Byte)
  /-- RXB.ETX, the end marker arrives (R68, R69). -/
  | rxbEtx
  /-- RXB.ACK, a sole acknowledgement byte (R70). -/
  | rxbAck
  /-- RXB.NAK, a sole negative-acknowledgement byte (R71). -/
  | rxbNak
  /-- RXB.DATA, an ordinary byte (R67). -/
  | rxbData (b : Byte)
  /-- RXI, receive idle (R72). -/
  | rxi
  /-- LSM.SEND, the action of SEND_k (R81). -/
  | lsmSend (k : Nat)
  /-- LSM.WAIT, the action of WAIT_k (R82, R83, R84). -/
  | lsmWait (k : Nat)
  /-- LSM.IDLE (R85). -/
  | lsmIdle
  /-- HTX, host transmit (R95, R96). -/
  | htx (p : List Byte)
  /-- RST, reset (R140). -/
  | rst
deriving DecidableEq, Repr

end Sys2Proof
end

