-- ==== Sys2Proof/WellFormed.lean ====
section
/-! DEFINITION. Which operations are within their domain under given parameters: the operand constraints of
spec/40_frame_codec.md R57, spec/41_rx_demux.md R67, spec/42_link_fsm.md R81 and spec/30_encoding.md R45. -/

namespace Sys2Proof

/-- The operands of `i` lie in the domain the spec gives the operation. A payload has at most `MAX_PAYLOAD` bytes
(R57), an ordinary byte is not the end marker (R67), a step index is below `N_STEPS` (R10, R81). -/
def Instr.wf (c : Config) : Instr → Bool
  | .enc p => decide (p.length ≤ c.maxPayload)
  | .dec _ => true
  | .rxbOvf _ => true
  | .rxbEtx => true
  | .rxbAck => true
  | .rxbNak => true
  | .rxbData b => decide (b ≠ ETX)
  | .rxi => true
  | .lsmSend k => decide (k < c.nSteps)
  | .lsmWait k => decide (k < c.nSteps)
  | .lsmIdle => true
  | .htx p => decide (p.length ≤ c.maxPayload)
  | .rst => true

end Sys2Proof
end

