-- ==== Sys2Proof/Decode.lean ====
section
/-! DEFINITION. Which operation a strobe and the bits on its port select (spec/30_encoding.md R42, R45, R46), the
encoder written from the same tables, the recogniser of format FRAME (R40), and the reading of a word of
spec/opcode_table.json. -/

namespace Sys2Proof

/-- What stands on the port whose strobe is active (spec/00_scope.md R7). RST, RXI and HTX have no opcode bits
(R42): the strobe is a wire, so the port is a constructor here and not a number (DESIGN CHOICE, log 19). -/
inductive PortWord where
  /-- A call of the codec with a payload (R45, row ENC). -/
  | encCall (p : List Byte)
  /-- A call of the codec with a raw frame (R45, row DEC). -/
  | decCall (r : List Byte)
  /-- `rx_byte` valid with this byte: format RXBYTE (R42). -/
  | rxByte (b : Byte)
  /-- The `rx_idle` strobe. -/
  | rxIdle
  /-- The `lsm_step` strobe, with the link state code that selects the arm: format LSTATE (R42). -/
  | lsmStep (code : Nat)
  /-- The `host_tx` strobe with its payload. -/
  | hostTx (p : List Byte)
  /-- The `reset` strobe. -/
  | reset
deriving DecidableEq, Repr

/-- Why a port word selects no operation. -/
inductive DecodeError where
  /-- A payload longer than `MAX_PAYLOAD` (R57, U5). -/
  | payloadTooLong
  /-- A link state code above `2*N_STEPS` (R48, U18). -/
  | stateCodeOutOfRange
deriving DecidableEq, Repr

/-- The decoder's answer. -/
inductive Decoded where
  /-- The operation selected. -/
  | ok (i : Instr)
  /-- No operation, and why. -/
  | rejected (e : DecodeError)
deriving DecidableEq, Repr

/-- The byte `b` arrives alone at an empty accumulator and is recognised on arrival (R46 conditions 3 and 4). -/
abbrev SoleOnArrival (c : Config) (wr : Nat) (r b : Byte) : Prop :=
  wr = 0 ∧ b = r ∧ c.soleByteDeferred = false

/-- Classification of a received byte, in the order of R46; `wr` is the cursor before the append. All 256 byte
values are accepted. -/
def decodeRxByte (c : Config) (wr : Nat) (b : Byte) : Instr :=
  if wr = c.cap then .rxbOvf b
  else if b = ETX then .rxbEtx
  else if SoleOnArrival c wr ACK b then .rxbAck
  else if SoleOnArrival c wr NAK b then .rxbNak
  else .rxbData b

/-- Format LSTATE (R42): bit 0 is 0 for a send state and 1 for a wait state, the other bits are the step index,
but the code `2*N_STEPS` is IDLE; a greater code is rejected, not taken as IDLE (R48). -/
def decodeLState (c : Config) (code : Nat) : Decoded :=
  if 2 * c.nSteps < code then .rejected .stateCodeOutOfRange
  else if code = 2 * c.nSteps then .ok .lsmIdle
  else if code % 2 = 0 then .ok (.lsmSend (code / 2))
  else .ok (.lsmWait (code / 2))

/-- An operation with a payload operand, within the domain of R57 only. -/
def decodePayload (c : Config) (op : List Byte → Instr) (p : List Byte) : Decoded :=
  if p.length ≤ c.maxPayload then .ok (op p) else .rejected .payloadTooLong

/-- The operation a port word selects (R45); `wr` is the accumulator's cursor. -/
def decode (c : Config) (wr : Nat) : PortWord → Decoded
  | .encCall p => decodePayload c .enc p
  | .decCall r => .ok (.dec r)
  | .rxByte b => .ok (decodeRxByte c wr b)
  | .rxIdle => .ok .rxi
  | .lsmStep code => decodeLState c code
  | .hostTx p => decodePayload c .htx p
  | .reset => .ok .rst

/-- The port word of an operation, from the tables of R42 and R45. -/
def encode (c : Config) : Instr → PortWord
  | .enc p => .encCall p
  | .dec r => .decCall r
  | .rxbOvf b => .rxByte b
  | .rxbEtx => .rxByte ETX
  | .rxbAck => .rxByte ACK
  | .rxbNak => .rxByte NAK
  | .rxbData b => .rxByte b
  | .rxi => .rxIdle
  | .lsmSend k => .lsmStep (2 * k)
  | .lsmWait k => .lsmStep (2 * k + 1)
  | .lsmIdle => .lsmStep (2 * c.nSteps)
  | .htx p => .hostTx p
  | .rst => .reset

/-- The parameters and the cursor at which an arm of RXB is the one selected (R45, R46); the other operations are
not selected by the cursor. -/
def Instr.selectedAt (c : Config) (wr : Nat) : Instr → Bool
  | .rxbOvf _ => decide (wr = c.cap)
  | .rxbEtx => decide (wr ≠ c.cap)
  | .rxbAck => decide (wr ≠ c.cap ∧ SoleOnArrival c wr ACK ACK)
  | .rxbNak => decide (wr ≠ c.cap ∧ SoleOnArrival c wr NAK NAK)
  | .rxbData b =>
      decide (wr ≠ c.cap ∧ b ≠ ETX ∧ ¬ SoleOnArrival c wr ACK b ∧ ¬ SoleOnArrival c wr NAK b)
  | .enc _ => true
  | .dec _ => true
  | .rxi => true
  | .lsmSend _ => true
  | .lsmWait _ => true
  | .lsmIdle => true
  | .htx _ => true
  | .rst => true

/-- The payload of a sequence in format FRAME (R40): start marker, payload, `cks` of the payload, end marker;
nothing for a sequence that is not such a frame. -/
def frameFields (r : List Byte) : Option (List Byte) :=
  let p := (r.drop 1).take (r.length - 3)
  if r = STX :: (p ++ [cks p, ETX]) then some p else none

/-- The `n` bytes of a word of the operation table, the first in the lowest bits. -/
def wordBytes : Nat → Nat → List Byte
  | 0, _ => []
  | n + 1, w => BitVec.ofNat 8 w :: wordBytes n (w / 256)

/-- A one-byte word of the operation table. Formats RXBYTE and LSTATE share the byte and the word does not say its
port; DESIGN CHOICE (log 20): the three bytes the table fixes in format RXBYTE are read in it, any other word as a
link state code where it is one, and as a received byte where it is not. -/
def decodeTableByte (c : Config) (b : Byte) : Decoded :=
  if b = ETX ∨ b = ACK ∨ b = NAK then decode c 0 (.rxByte b)
  else
    match decode c 0 (.lsmStep b.toNat) with
    | .ok i => .ok i
    | .rejected _ => decode c 0 (.rxByte b)

/-- A longer word: a whole frame (R40) is ENC's row, any other sequence of bytes is DEC's operand (R58). -/
def decodeTableFrame (c : Config) (r : List Byte) : Decoded :=
  match frameFields r with
  | some p => decode c 0 (.encCall p)
  | none => decode c 0 (.decCall r)

/-- The operation the decoder reads from a word of spec/opcode_table.json, under configuration TC and with an
empty accumulator (log 20). -/
def decodeTableWord (nbits w : Nat) : Option Instr :=
  if nbits = 0 then none
  else
    let d := if nbits ≤ 8 then decodeTableByte .tc (BitVec.ofNat 8 w)
      else decodeTableFrame .tc (wordBytes ((nbits + 7) / 8) w)
    match d with
    | .ok i => some i
    | .rejected _ => none

end Sys2Proof
end

