-- ==== Sys2Proof/Machine/State.lean ====
section
/-! DEFINITION. The state of the block (spec/10_state.md), its ports and streams (spec/00_scope.md R7,
spec/20_memory.md R27), the ways a step can stop, and the state right after reset (R21). Plain data. -/

namespace Sys2Proof.Machine

/-- The position of the Link State Machine (R10): `SEND_k`, `WAIT_k`, `IDLE`. -/
inductive LinkState where
  | send (k : Nat)
  | wait (k : Nat)
  | idle
deriving DecidableEq, Repr

/-- A decoded frame: `type_a`, `type_b`, `body` (R41, R58). -/
structure Frame where
  typeA : Byte
  typeB : Byte
  body : List Byte
deriving DecidableEq, Repr

/-- The result of DEC (R58). -/
inductive DecResult where
  | rejected
  | accepted (f : Frame)
deriving DecidableEq, Repr

/-- What the environment presents at one moment: at most one operation's strobe with its operand (R7, R9). -/
inductive PortOp where
  /-- The `reset` strobe. -/
  | rst
  /-- `rx_byte` valid. -/
  | rx (b : Byte)
  /-- The `rx_idle` strobe. -/
  | rxi
  /-- The `lsm_step` strobe. -/
  | lsm
  /-- The `host_tx` strobe with a payload. -/
  | htx (p : List Byte)
  /-- A call of ENC by itself (R55). -/
  | enc (p : List Byte)
  /-- A call of DEC by itself (R55). -/
  | dec (r : List Byte)
  /-- No strobe: the host looks at the levels and `now` has moved (R9, R98). -/
  | observe
deriving DecidableEq, Repr

/-- A strobe and the count on the `now` port when it is given (R6, R51). -/
structure Stimulus where
  op : PortOp
  now : Nat
deriving DecidableEq, Repr

/-- The output ports that hold for one operation only (R7, R100), and the results of a stand-alone ENC or DEC. -/
structure Outputs where
  /-- The bytes this operation wrote to `tx`. -/
  tx : List Byte := []
  /-- `ack_evt`. -/
  ackEvt : Bool := false
  /-- `nak_evt`. -/
  nakEvt : Bool := false
  /-- `frame_evt` with `type_a`, `type_b`, `body`. -/
  frameEvt : Option Frame := none
  /-- `host_refused`. -/
  hostRefused : Bool := false
  /-- The result of ENC. -/
  encResult : Option (List Byte) := none
  /-- The result of DEC. -/
  decResult : Option DecResult := none
deriving DecidableEq, Repr

/-- The accumulator's cells: (index, byte) pairs with strictly rising indices. An index that is not listed reads
as no value here (log 10). -/
abbrev Memory := List Host.Cell

/-- Why the block stops with a fault. The spec has no trap (R120); both need a state that no run from
reset reaches. -/
inductive Fault where
  /-- Raised by a step-check in a link state with a step index at or above `N_STEPS`, which has no entry of
  `INIT_CMD` and no code (R10, R48, U18). Safe: no run reaches such a state (R88). -/
  | linkStateOutOfRange
  /-- Raised by an append at an index at or above `CAP` (R25). Safe: `wr` never exceeds `CAP` (R12). -/
  | accIndexOutOfRange
deriving DecidableEq, Repr

/-- Why an operation is refused. -/
inductive Refusal where
  /-- Raised by an arm of `exec` that has no meaning yet. Safe. -/
  | notModelled (mnemonic : String)
  /-- Raised by ENC, HTX and LSM.SEND on a payload longer than `MAX_PAYLOAD` (R57, U5). Safe. -/
  | payloadTooLong
  /-- Raised by a step under parameters that break R4 or R5 (R120). Safe. -/
  | badParameters
  /-- Raised by an arm of RXB or LSM in a state that does not select it (R45, R46). `step` never raises it. Safe. -/
  | notSelected
deriving DecidableEq, Repr

/-- The whole state. -/
structure State where
  /-- The parameters (R4, R18): no operation writes them. -/
  cfg : Config
  /-- `state`, the link state register (R10, R11). -/
  link : LinkState
  /-- `wr`, the accumulator's write cursor (R12). -/
  wr : Nat
  /-- `t_action` (R13). -/
  tAction : Nat
  /-- `t_contact` with its valid bit; `none` is `NONE` (R14). -/
  tContact : Option Nat
  /-- `ack_flag` (R15). -/
  ackFlag : Bool
  /-- `nak_flag` (R16). -/
  nakFlag : Bool
  /-- `acc` (R20). -/
  acc : Memory
  /-- The input port `now` (R6, R7). -/
  now : Nat
  /-- The bytes of `rx` consumed so far, oldest first (R27, R30). -/
  rx : List Byte
  /-- The bytes of `tx` written so far, oldest first (R27, R31). -/
  tx : List Byte
  /-- The output ports of the last operation (R100). -/
  out : Outputs
  /-- What the environment has presented and the block has not performed, the next first (R9). -/
  pending : List Stimulus
  /-- The model's own: the index of the free values of this step (log 39). -/
  draws : Nat
  /-- The model's own: the draw of the last reset, for the accumulator's free bytes (log 39). -/
  accEpoch : Nat
deriving DecidableEq, Repr

/-- What an operation answers. -/
abbrev Result := Host.Outcome State Fault Refusal

/-- The state right after reset under given parameters (R21). DESIGN CHOICE: `t_action` 0 (log 8), `now` 0 (log 6),
empty histories (log 12), no stimulus presented (log 2), the model's counters 0 (log 39). -/
def State.resetWith (c : Config) : State where
  cfg := c
  link := .send 0
  wr := 0
  tAction := 0
  tContact := none
  ackFlag := false
  nakFlag := false
  acc := []
  now := 0
  rx := []
  tx := []
  out := {}
  pending := []
  draws := 0
  accEpoch := 0

/-- The state right after reset; DESIGN CHOICE (log 4): with configuration TC. -/
def State.reset : State := State.resetWith .tc

end Sys2Proof.Machine
end

