-- ==== Sys2Proof/Machine/Flags.lean ====
section
/-! DEFINITION. The two pending flags (spec/10_state.md R15, R16), the event primitives
(spec/41_rx_demux.md R73, R74, R75) and the levels derived from state (spec/43_host_port.md R98, R99). -/

namespace Sys2Proof.Machine

/-- `raise ACK(now)` (R73). -/
def raiseAck (s : State) : State :=
  { s with ackFlag := true, tContact := some s.now, out := { s.out with ackEvt := true } }

/-- `raise NAK(now)`: `t_contact` is unchanged (R74, decision D9). -/
def raiseNak (s : State) : State :=
  { s with nakFlag := true, out := { s.out with nakEvt := true } }

/-- `emit FRAME(f, now)`: sets no flag (R75). -/
def emitFrame (f : Frame) (s : State) : State :=
  { s with tContact := some s.now, out := { s.out with frameEvt := some f } }

/-- Both flags cleared by a send (R81, R95, decision D14). -/
def clearFlags (s : State) : State :=
  { s with ackFlag := false, nakFlag := false }

/-- The numeric code of a link state (R10, decision D16). -/
def LinkState.code (c : Config) : LinkState → Nat
  | .send k => 2 * k
  | .wait k => 2 * k + 1
  | .idle => 2 * c.nSteps

/-- The link states that exist: a step index is below `N_STEPS` (R10). -/
def LinkState.inRange (c : Config) : LinkState → Bool
  | .send k => decide (k < c.nSteps)
  | .wait k => decide (k < c.nSteps)
  | .idle => true

/-- Level output `state` (R98). -/
def stateLevel (s : State) : Nat := s.link.code s.cfg

/-- Level output `idle` (R98). -/
def idleLevel (s : State) : Bool := decide (s.link = .idle)

/-- Level output `connected` (R99): a free draw while `t_contact` is `NONE` (U3, log 9). -/
def connectedLevel (s : State) : Bool :=
  match s.tContact with
  | none => Config.freeConnected s.draws
  | some t => decide (elapsed s.cfg s.now t < T_CONN)

end Sys2Proof.Machine
end

