-- ==== Sys2Proof/Machine/Frame.lean ====
section
/-! DEFINITION. The two pure functions of the Frame Codec (spec/40_frame_codec.md R55). -/

namespace Sys2Proof.Machine

/-- ENC's result: start marker, payload, checksum, end marker (R56). -/
def encodeFrame (p : List Byte) : List Byte :=
  STX :: (p ++ [cks p, ETX])

/-- The payload between the start marker and the checksum of a raw frame: offsets 1 to n-3 (R58). -/
def framePayload (r : List Byte) : List Byte :=
  (r.drop 1).take (r.length - 3)

/-- DEC (R58), with the opt-in checksum test of R60. The last byte is not examined. -/
def decodeFrame (strict : Bool) (r : List Byte) : DecResult :=
  if r.length < 5 then .rejected
  else if r.getD 0 0#8 ≠ STX then .rejected
  else if strict = true ∧ r.getD (r.length - 2) 0#8 ≠ cks (framePayload r) then .rejected
  else .accepted
    { typeA := r.getD 1 0#8, typeB := r.getD 2 0#8, body := (r.drop 3).take (r.length - 5) }

end Sys2Proof.Machine
end

