-- ==== Sys2Proof/Machine/Ops.lean ====
section
/-! DEFINITION. The named operations over the accumulator, the streams and the registers
(spec/20_memory.md R25 to R34), and the one shared operation that takes an error of the block's taxonomy
(spec/60_exceptions.md R121, R132). -/

namespace Sys2Proof.Machine

/-- Goes on with the next state, or stops as `o` stops. -/
def andThen (o : Result) (f : State → Result) : Result :=
  match o with
  | .next s => f s
  | .fault e => .fault e
  | .refused e => .refused e

/-- The byte listed at an index. -/
def Memory.read? : Memory → Nat → Option Byte
  | [], _ => none
  | (a, b) :: m, i => if a = i then some b else Memory.read? m i

/-- A byte written at an index, the indices kept strictly rising. -/
def Memory.write : Memory → Nat → Byte → Memory
  | [], i, b => [(i, b)]
  | (a, x) :: m, i, b =>
    if i < a then (i, b) :: (a, x) :: m
    else if i = a then (i, b) :: m
    else (a, x) :: Memory.write m i b

/-- The canonical form: indices strictly rising. (An unlisted index reads as no value, so no entry can equal
what an unlisted index reads as.) -/
def Memory.wf : Memory → Bool
  | [] => true
  | [_] => true
  | (a, _) :: (b, y) :: m => decide (a < b) && Memory.wf ((b, y) :: m)

/-- `acc[i]` read: one byte. A cell nothing has written since reset holds any value (U4, R142; log 10). -/
def accRead (s : State) (i : Nat) : Byte :=
  (Memory.read? s.acc i).getD (Config.freeByte s.accEpoch i)

/-- `acc[i] <- b`; there is no cell at or beyond `CAP` (R25). -/
def accWrite (i : Nat) (b : Byte) (s : State) : Result :=
  if i < s.cfg.cap then .next { s with acc := Memory.write s.acc i b }
  else .fault .accIndexOutOfRange

/-- Append: `acc[wr] <- b; wr <- wr + 1` (R32). -/
def append (b : Byte) (s : State) : Result :=
  andThen (accWrite s.wr b s) fun t => .next { t with wr := t.wr + 1 }

/-- Reset to empty: `wr <- 0` and nothing else (R34). -/
def clearAcc (s : State) : State := { s with wr := 0 }

/-- RXB consumes its byte from the rx stream (R30). -/
def takeRx (b : Byte) (s : State) : State := { s with rx := s.rx ++ [b] }

/-- `tx <- bs`: one indivisible append, which cannot fail (R31). -/
def writeTx (bs : List Byte) (s : State) : State :=
  { s with tx := s.tx ++ bs, out := { s.out with tx := bs } }

/-- The action timestamp (R13). -/
def stampAction (s : State) : State := { s with tAction := s.now }

/-- `state <- l` (R8, R11). -/
def setLink (l : LinkState) (s : State) : State := { s with link := l }

/-- All pulses low: each lasts for the operation that raised it (R100). -/
def quiet (s : State) : State := { s with out := {} }

/-- A transmission with its side effects, the same for LSM.SEND (R81) and HTX (R95): `tx <- ENC(p);
t_action <- now; ack_flag <- 0; nak_flag <- 0`. A payload outside ENC's domain is refused (R57). -/
def transmit (p : List Byte) (s : State) : Result :=
  if p.length ≤ s.cfg.maxPayload then .next (clearFlags (stampAction (writeTx (encodeFrame p) s)))
  else .refused .payloadTooLong

/-- The error taxonomy (R121); the names are identifiers only, nothing records them (decision D24). -/
inductive ErrorKind where
  /-- R122. -/
  | malformed
  /-- R123. -/
  | overflow
  /-- R124. -/
  | ackTimeout
  /-- R125. -/
  | nakSeen
  /-- R126, met outside the block. -/
  | unknownTag
  /-- R127, a derived level. -/
  | contactLost
  /-- R128. -/
  | hostRefused
deriving DecidableEq, Repr

/-- Entry to an error: the state change of R121's table and nothing more (R132). No status is saved, no address is
jumped to (R120), so there is no return operation (R133). -/
def takeError (e : ErrorKind) (s : State) : State :=
  match e with
  | .malformed => clearAcc s
  | .overflow => clearAcc s
  | .ackTimeout =>
    match s.link with
    | .wait k => setLink (.send k) s
    | .send _ => s
    | .idle => s
  | .nakSeen => raiseNak s
  | .unknownTag => s
  | .contactLost => s
  | .hostRefused => { s with out := { s.out with hostRefused := true } }

end Sys2Proof.Machine
end

