-- ==== Sys2Proof/Machine/Operands.lean ====
section
/-! DEFINITION. The operand forms: the candidate in the accumulator (spec/41_rx_demux.md R68, R69), the command
table entry (spec/20_memory.md R26), the port word a strobe gives with the present state (spec/30_encoding.md
R45), and whether the present state selects an arm. -/

namespace Sys2Proof.Machine

/-- `acc[start ..< wr]` (R68). -/
def candidate (start : Nat) (s : State) : List Byte :=
  (List.range' start (s.wr - start)).map (accRead s)

/-- An acknowledgement-prefixed candidate (R69). -/
abbrev AckPrefixed (s : State) : Prop :=
  2 ≤ s.wr ∧ accRead s 0 = ACK ∧ accRead s 1 = STX

/-- `INIT_CMD[k]`, where the table has such an entry (R26). -/
def initCommand (k : Nat) (s : State) : Option (List Byte) := s.cfg.initCmd[k]?

/-- The advance condition of `WAIT_k` (R82, R83). -/
abbrev Advances (k : Nat) (s : State) : Prop :=
  s.ackFlag = true ∨ (k = s.cfg.nakOkStep ∧ s.nakFlag = true)

/-- More than `T_RETRY` has elapsed since the action timestamp; strict (R84). -/
abbrev TimedOut (s : State) : Prop := T_RETRY < elapsed s.cfg s.now s.tAction

/-- The successor of `WAIT_k` on an acknowledgement (R11, R82). -/
def nextStep (k : Nat) (s : State) : LinkState :=
  if k + 1 < s.cfg.nSteps then .send (k + 1) else .idle

/-- The state selects the arm: the cursor and the byte for RXB (R46), the link state for LSM (R45). -/
def selected (i : Instr) (s : State) : Bool :=
  Instr.selectedAt s.cfg s.wr i &&
    match i with
    | .lsmSend k => decide (s.link = .send k)
    | .lsmWait k => decide (s.link = .wait k)
    | .lsmIdle => decide (s.link = .idle)
    | .enc _ | .dec _ | .rxbOvf _ | .rxbEtx | .rxbAck | .rxbNak | .rxbData _ | .rxi | .htx _ | .rst => true

/-- Runs an arm in a state that selects it, from pulses that are low (R100); elsewhere it is not the operation
that would be performed, and it is refused (log 15). -/
def whenSelected (i : Instr) (f : State → Result) (s : State) : Result :=
  if selected i s then f (quiet s) else .refused .notSelected

/-- What stands on the port of a strobe: the operand it carries, or for `lsm_step` the link state code (R45).
Nothing for the moment without a strobe. -/
def portWord (s : State) : PortOp → Option PortWord
  | .rst => some .reset
  | .rx b => some (.rxByte b)
  | .rxi => some .rxIdle
  | .lsm => some (.lsmStep (s.link.code s.cfg))
  | .htx p => some (.hostTx p)
  | .enc p => some (.encCall p)
  | .dec r => some (.decCall r)
  | .observe => none

end Sys2Proof.Machine
end

