-- ==== Sys2Proof/Machine/Codec.lean ====
section
/-! DEFINITION. ENC and DEC performed by themselves (spec/40_frame_codec.md): they read no register and write
none (R55); the result stands in `out` (log 14). -/

namespace Sys2Proof.Machine

/-- ENC (R56), within the domain of R57. -/
def execEnc (p : List Byte) (s : State) : Result :=
  whenSelected (.enc p) (fun s =>
    if p.length ≤ s.cfg.maxPayload then
      .next { s with out := { s.out with encResult := some (encodeFrame p) } }
    else .refused .payloadTooLong) s

/-- DEC (R58, R59, R60). -/
def execDec (r : List Byte) (s : State) : Result :=
  whenSelected (.dec r) (fun s =>
    .next { s with out := { s.out with decResult := some (decodeFrame s.cfg.strictChecksum r) } }) s

end Sys2Proof.Machine
end

