-- ==== Sys2Proof/Machine/HostPort.lean ====
section
/-! DEFINITION. The host's operations: transmit (spec/43_host_port.md R95, R96) and reset
(spec/70_reset_and_hazards.md R140). -/

namespace Sys2Proof.Machine

/-- HTX: in IDLE the frame is sent (R95); outside IDLE the request is refused with a pulse and no other effect
(R96). A payload longer than `MAX_PAYLOAD` is outside the domain in either phase (R57). -/
def execHtx (p : List Byte) (s : State) : Result :=
  whenSelected (.htx p) (fun s =>
    if p.length ≤ s.cfg.maxPayload then
      if s.link = .idle then transmit p s else .next (takeError .hostRefused s)
    else .refused .payloadTooLong) s

/-- RST (R140). `t_action` and the accumulator's cells are left unspecified: free values (log 8, log 10). What was
written to `tx` is not recalled. -/
def execRst (s : State) : Result :=
  whenSelected .rst (fun s =>
    .next { s with
      link := .send 0
      wr := 0
      ackFlag := false
      nakFlag := false
      tContact := none
      tAction := s.cfg.time (Config.freeTime s.draws)
      acc := []
      accEpoch := s.draws }) s

end Sys2Proof.Machine
end

