-- ==== Sys2Proof/Machine/LinkFsm.lean ====
section
/-! DEFINITION. The Link State Machine (spec/42_link_fsm.md). -/

namespace Sys2Proof.Machine

/-- LSM.SEND (R81): the step's fixed command is transmitted, the machine goes to the wait state. A step index with
no entry in the table stops (log 16). -/
def execLsmSend (k : Nat) (s : State) : Result :=
  whenSelected (.lsmSend k) (fun s =>
    match initCommand k s with
    | none => .fault .linkStateOutOfRange
    | some p => andThen (transmit p s) fun s => .next (setLink (.wait k) s)) s

/-- LSM.WAIT: advance on an acknowledgement, or at `NAK_OK_STEP` on a negative-acknowledgement (R82, R83);
otherwise the timeout (R84); otherwise nothing. -/
def execLsmWait (k : Nat) (s : State) : Result :=
  whenSelected (.lsmWait k) (fun s =>
    if s.cfg.nSteps ≤ k then .fault .linkStateOutOfRange
    else if Advances k s then .next (setLink (nextStep k s) s)
    else if TimedOut s then .next (takeError .ackTimeout s)
    else .next s) s

/-- LSM.IDLE (R85): nothing. -/
def execLsmIdle (s : State) : Result :=
  whenSelected .lsmIdle (fun s => .next s) s

end Sys2Proof.Machine
end

