-- ==== Sys2Proof/Machine/RxDemux.lean ====
section
/-! DEFINITION. The Receive Demultiplexer with the acknowledgement detector (spec/41_rx_demux.md). -/

namespace Sys2Proof.Machine

/-- RXB.OVF (R66): the accumulator is reset, the byte is neither stored nor examined. -/
def execRxbOvf (b : Byte) (s : State) : Result :=
  whenSelected (.rxbOvf b) (fun s => .next (takeError .overflow (takeRx b s))) s

/-- RXB.DATA (R67). -/
def execRxbData (b : Byte) (s : State) : Result :=
  whenSelected (.rxbData b) (fun s => append b (takeRx b s)) s

/-- DEC of the candidate from `start`, and the frame event if it accepts; a rejected candidate is discarded
(R68, R122). The accumulator is reset either way. -/
def takeCandidate (start : Nat) (s : State) : State :=
  match decodeFrame s.cfg.strictChecksum (candidate start s) with
  | .accepted f => clearAcc (emitFrame f s)
  | .rejected => takeError .malformed s

/-- The end marker has been appended: the start is resolved, the acknowledgement prefix raised before DEC runs
(R68, R69, R130). -/
def endMarker (s : State) : State :=
  if AckPrefixed s then takeCandidate 1 (raiseAck s)
  else if accRead s 0 = STX then takeCandidate 0 s
  else takeError .malformed s

/-- RXB.ETX (R68, R69). -/
def execRxbEtx (s : State) : Result :=
  whenSelected .rxbEtx (fun s =>
    andThen (append ETX (takeRx ETX s)) fun s => .next (endMarker s)) s

/-- RXB.ACK, the acknowledgement detector (R70). -/
def execRxbAck (s : State) : Result :=
  whenSelected .rxbAck (fun s =>
    andThen (append ACK (takeRx ACK s)) fun s => .next (clearAcc (raiseAck s))) s

/-- RXB.NAK (R71). -/
def execRxbNak (s : State) : Result :=
  whenSelected .rxbNak (fun s =>
    andThen (append NAK (takeRx NAK s)) fun s => .next (clearAcc (takeError .nakSeen s))) s

/-- RXI (R72): the deferred sole-byte test; nothing when `SOLE_BYTE_DEFERRED` is false. -/
def execRxi (s : State) : Result :=
  whenSelected .rxi (fun s =>
    if s.cfg.soleByteDeferred = true ∧ s.wr = 1 then
      if accRead s 0 = ACK then .next (clearAcc (raiseAck s))
      else if accRead s 0 = NAK then .next (clearAcc (takeError .nakSeen s))
      else .next s
    else .next s) s

end Sys2Proof.Machine
end

