-- ==== Sys2Proof/Machine/Dispatch.lean ====
section
/-! DEFINITION. One arm per operation of spec/opcode_table.json. -/

namespace Sys2Proof.Machine

def exec (i : Instr) (s : State) : Host.Outcome State Fault Refusal :=
  match i with
  | .enc p => Sys2Proof.Machine.execEnc p s
  | .dec r => Sys2Proof.Machine.execDec r s
  | .rxbOvf b => Sys2Proof.Machine.execRxbOvf b s
  | .rxbEtx => Sys2Proof.Machine.execRxbEtx s
  | .rxbAck => Sys2Proof.Machine.execRxbAck s
  | .rxbNak => Sys2Proof.Machine.execRxbNak s
  | .rxbData b => Sys2Proof.Machine.execRxbData b s
  | .rxi => Sys2Proof.Machine.execRxi s
  | .lsmSend k => Sys2Proof.Machine.execLsmSend k s
  | .lsmWait k => Sys2Proof.Machine.execLsmWait k s
  | .lsmIdle => Sys2Proof.Machine.execLsmIdle s
  | .htx p => Sys2Proof.Machine.execHtx p s
  | .rst => Sys2Proof.Machine.execRst s

end Sys2Proof.Machine
end

