-- ==== Sys2Proof/Machine/Present.lean ====
section
/-! DEFINITION. How a stimulus reaches the block: the ports take its values, the strobe selects an operation, the
operation runs (spec/00_scope.md R6, R7, R9, spec/30_encoding.md R45); and how one given operation is presented
(log 21). -/

namespace Sys2Proof.Machine

/-- The ports take the next stimulus: `now` carries `TIME_W` bits of the count (R6). A new draw of free values
begins (log 39). -/
def present (st : Stimulus) (rest : List Stimulus) (s : State) : State :=
  { s with pending := rest, now := s.cfg.time st.now, draws := s.draws + 1 }

/-- A moment at which no operation happens: the pulses are low and nothing else changes (R9, R100). -/
def noOperation (s : State) : State := quiet { s with draws := s.draws + 1 }

/-- How a rejected port word stops: a payload outside its domain is refused (R57), a link state code above
`2*N_STEPS` faults (R48). -/
def reject : DecodeError → Result
  | .payloadTooLong => .refused .payloadTooLong
  | .stateCodeOutOfRange => .fault .linkStateOutOfRange

/-- The strobe's operation, performed. A link state outside R10 is not a code of the block, and in particular not
IDLE's (R48). -/
def perform (op : PortOp) (s : State) : Result :=
  match portWord s op with
  | none => .next (quiet s)
  | some w =>
    if op = .lsm ∧ s.link.inRange s.cfg = false then .fault .linkStateOutOfRange
    else
      match decode s.cfg s.wr w with
      | .ok i => exec i s
      | .rejected e => reject e

/-- The stimulus that carries an operation's strobe. -/
def strobeOf : Instr → PortOp
  | .enc p => .enc p
  | .dec r => .dec r
  | .rxbOvf b => .rx b
  | .rxbEtx => .rx ETX
  | .rxbAck => .rx ACK
  | .rxbNak => .rx NAK
  | .rxbData b => .rx b
  | .rxi => .rxi
  | .lsmSend _ => .lsm
  | .lsmWait _ => .lsm
  | .lsmIdle => .lsm
  | .htx p => .htx p
  | .rst => .rst

/-- The state with what the selection of an arm depends on (R45) made to select it: the link state for LSM, the
cursor for RXB, and `SOLE_BYTE_DEFERRED` false for the two arms that exist under that value only. -/
def makeSelect (i : Instr) (s : State) : State :=
  match i with
  | .lsmSend k => { s with link := .send k }
  | .lsmWait k => { s with link := .wait k }
  | .lsmIdle => { s with link := .idle }
  | .rxbOvf _ => { s with wr := s.cfg.cap }
  | .rxbEtx => if s.wr < s.cfg.cap then s else { s with wr := 0 }
  | .rxbData _ => if s.wr < s.cfg.cap then s else { s with wr := 0 }
  | .rxbAck => { s with wr := 0, cfg := { s.cfg with soleByteDeferred := false } }
  | .rxbNak => { s with wr := 0, cfg := { s.cfg with soleByteDeferred := false } }
  | .enc _ | .dec _ | .rxi | .htx _ | .rst => s

/-- The state in which the environment presents this operation next; time stands still. -/
def presentInstr (i : Instr) (s : State) : State :=
  { makeSelect i s with pending := { op := strobeOf i, now := s.now } :: s.pending }

end Sys2Proof.Machine
end

