-- ==== Sys2Proof/Machine/Step.lean ====
section
/-! DEFINITION. One step: the next stimulus is presented and its operation performed, whole (spec/00_scope.md
R9, spec/20_memory.md R35, R36). -/

namespace Sys2Proof.Machine

/-- One step. Parameters that break R4 or R5 are refused (R120). -/
def step (s : State) : Host.Outcome State Fault Refusal :=
  if s.cfg.wf = true then
    match s.pending with
    | [] => .next (noOperation s)
    | st :: rest => perform st.op (present st rest s)
  else .refused .badParameters

/-- The state in which the next step runs the operation that `decodeTableWord nbits w` reads (log 21). -/
def State.withFetchWord (s : State) (nbits w : Nat) : State :=
  match decodeTableWord nbits w with
  | some i => presentInstr i s
  | none => s

end Sys2Proof.Machine
end

