-- ==== Sys2Proof/Machine/Whole.lean ====
section
/-! DEFINITION. The two operations the spec also gives whole, RXB (spec/41_rx_demux.md R65) and LSM
(spec/42_link_fsm.md R80), written line by line from their pseudocode and apart from the arms: the machine runs
the arms, a statement says that the two agree. -/

namespace Sys2Proof.Machine

/-- The start of the candidate, and the acknowledgement the prefix raises: the inner `if` of R65. -/
def resolveStart (s : State) : Option Nat × State :=
  if 2 ≤ s.wr ∧ accRead s 0 = ACK ∧ accRead s 1 = STX then (some 1, raiseAck s)
  else if accRead s 0 = STX then (some 0, s)
  else (none, s)

/-- `if start != none: d <- DEC(acc[start ..< wr]); if d != rejected: emit FRAME(d, now)` (R65). -/
def decodeFrom : Option Nat × State → State
  | (none, s) => s
  | (some start, s) =>
    match decodeFrame s.cfg.strictChecksum (candidate start s) with
    | .rejected => s
    | .accepted f => emitFrame f s

/-- `RXB(b, now)` (R65). -/
def rxbWhole (b : Byte) (s : State) : Result :=
  let s := takeRx b (quiet s)
  if s.wr = s.cfg.cap then .next (clearAcc s)
  else
    andThen (append b s) fun s =>
      if b = ETX then .next (clearAcc (decodeFrom (resolveStart s)))
      else if s.wr = 1 ∧ b = ACK ∧ ¬ s.cfg.soleByteDeferred then .next (clearAcc (raiseAck s))
      else if s.wr = 1 ∧ b = NAK ∧ ¬ s.cfg.soleByteDeferred then .next (clearAcc (raiseNak s))
      else .next s

/-- `LSM(now)` (R80). A step index without a table entry has no line in the pseudocode (R10, U18). -/
def lsmWhole (s : State) : Result :=
  let s := quiet s
  match s.link with
  | .send k =>
    match s.cfg.initCmd[k]? with
    | none => .fault .linkStateOutOfRange
    | some p =>
      if p.length ≤ s.cfg.maxPayload then
        .next { s with
          tx := s.tx ++ encodeFrame p
          out := { tx := encodeFrame p }
          tAction := s.now
          ackFlag := false
          nakFlag := false
          link := .wait k }
      else .refused .payloadTooLong
  | .wait k =>
    if k < s.cfg.nSteps then
      if s.ackFlag = true ∨ (k = s.cfg.nakOkStep ∧ s.nakFlag = true) then
        .next { s with link := if k + 1 < s.cfg.nSteps then .send (k + 1) else .idle }
      else if T_RETRY < elapsed s.cfg s.now s.tAction then .next { s with link := .send k }
      else .next s
    else .fault .linkStateOutOfRange
  | .idle => .next s

end Sys2Proof.Machine
end

