-- ==== Sys2Proof/Machine/Trace.lean ====
section
/-! DEFINITION. The trace lines of spec/30_encoding.md R51 as stimuli, and the pseudo-operations of R52 with
their expansions (log 36). -/

namespace Sys2Proof.Machine.Trace

/-- `rst`. -/
def rst (t : Nat) : List Stimulus := [{ op := .rst, now := t }]
/-- `rx BB @T`. -/
def rx (b : Byte) (t : Nat) : List Stimulus := [{ op := .rx b, now := t }]
/-- `rxi @T`. -/
def rxi (t : Nat) : List Stimulus := [{ op := .rxi, now := t }]
/-- `step @T`. -/
def lsm (t : Nat) : List Stimulus := [{ op := .lsm, now := t }]
/-- `htx <BB ...> @T`. -/
def htx (p : List Byte) (t : Nat) : List Stimulus := [{ op := .htx p, now := t }]

/-- `rxs <B0 ... Bn> @T` (R52). -/
def rxs (bs : List Byte) (t : Nat) : List Stimulus := bs.flatMap fun b => rx b t
/-- `rxframe <payload> @T` (R52). -/
def rxframe (p : List Byte) (t : Nat) : List Stimulus := rxs (encodeFrame p) t
/-- `drain <B0 ... Bn> @T` (R52). -/
def drain (bs : List Byte) (t : Nat) : List Stimulus := rxs bs t ++ rxi t
/-- `loop <B0 ... Bn> @T` (R52): one turn of the source's cooperative loop. -/
def loop (bs : List Byte) (t : Nat) : List Stimulus := drain bs t ++ lsm t
/-- `rx_byte` valid and `lsm_step` in one cycle of a clocked implementation: RXB first (R9, R131). -/
def sameCycle (b : Byte) (t : Nat) : List Stimulus := rx b t ++ lsm t

end Sys2Proof.Machine.Trace
end

