-- ==== Sys2Proof/Safety.lean ====
section
/-! DEFINITION. What counts as a safe state and a safe run, in the terms the statements use. -/

namespace Sys2Proof.Machine

/-- The bytes the accumulator holds, `acc[0 ..< wr]` (R20). -/
def heldBytes (s : State) : List Byte := (List.range s.wr).map (accRead s)

/-- What every operation keeps, from any state that has it. -/
structure Inv (s : State) : Prop where
  /-- The parameters meet R4 and R5. -/
  params : s.cfg.wf = true
  /-- `0 <= wr <= CAP` (R12). -/
  cursor : s.wr ≤ s.cfg.cap
  /-- The link state is one of R10's. -/
  link : s.link.inRange s.cfg = true
  /-- The accumulator is in canonical form. -/
  memory : Memory.wf s.acc = true
  /-- The accumulator has no cell at or beyond `CAP` (R25). -/
  cells : ∀ c ∈ s.acc, c.1 < s.cfg.cap
  /-- Every cell below the cursor has been written since reset (R142). -/
  written : ∀ i < s.wr, (Memory.read? s.acc i).isSome = true
  /-- No byte equal to `ETX` is left in the accumulator (R76). -/
  noEtx : ∀ i < s.wr, accRead s i ≠ ETX
  /-- With `SOLE_BYTE_DEFERRED` false the first byte held is no acknowledgement and no
  negative-acknowledgement (R76). -/
  firstByte : s.cfg.soleByteDeferred = false → 0 < s.wr → accRead s 0 ≠ ACK ∧ accRead s 0 ≠ NAK
  /-- The timestamps and `now` have `TIME_W` bits (R6, R13, R14). -/
  action : s.tAction < 2 ^ s.cfg.timeW
  contact : ∀ t, s.tContact = some t → t < 2 ^ s.cfg.timeW
  clock : s.now < 2 ^ s.cfg.timeW

/-- The operand of a strobe is one the spec admits: a payload has at most `MAX_PAYLOAD` bytes (R57). -/
def PortOp.admitted (c : Config) : PortOp → Bool
  | .enc p => decide (p.length ≤ c.maxPayload)
  | .htx p => decide (p.length ≤ c.maxPayload)
  | .rst | .rx _ | .rxi | .lsm | .dec _ | .observe => true

/-- Two states that differ at most in what the spec leaves unspecified at reset: `t_action` outside a wait state
(R13) and the accumulator's cells at or beyond `wr` (R20, R142). -/
structure SameButUnspecified (s t : State) : Prop where
  cfg : s.cfg = t.cfg
  link : s.link = t.link
  wr : s.wr = t.wr
  action : ∀ k, s.link = .wait k → s.tAction = t.tAction
  contact : s.tContact = t.tContact
  ack : s.ackFlag = t.ackFlag
  nak : s.nakFlag = t.nakFlag
  cells : ∀ i < s.wr, accRead s i = accRead t i
  now : s.now = t.now
  rx : s.rx = t.rx
  tx : s.tx = t.tx
  out : s.out = t.out
  pending : s.pending = t.pending
  draws : s.draws = t.draws

/-- A run of `n` steps: the output ports after each step, oldest first, and the state it ends in; nothing if a
step stops. -/
def runOutputs : Nat → State → Option (List Outputs × State)
  | 0, s => some ([], s)
  | n + 1, s =>
    match step s with
    | .next t => (runOutputs n t).map fun r => (t.out :: r.1, r.2)
    | .fault _ => none
    | .refused _ => none

end Sys2Proof.Machine
end

