-- ==== Sys2Proof/Certificates/Slice0/Obligations.lean ====
section
/-! DEFINITION. The statements for the provers, each about the machine and none about a program. -/

open Sys2Proof Sys2Proof.Machine

/-! ## Frame Codec -/

/-- ENC completes on every payload of its domain with the frame of R56 as its result, and writes no state but the
output port. -/
def Obligations.EncResult : Prop :=
  ∀ (p : List Byte) (s : State), p.length ≤ s.cfg.maxPayload →
    exec (.enc p) s = .next { s with
      out := { encResult := some ([0x02#8] ++ p ++ [if sum8 p = 0x03#8 then 0x05#8 else sum8 p, 0x03#8]) } }

/-- A payload longer than `MAX_PAYLOAD` is refused by ENC, and by HTX in either phase (spec/40_frame_codec.md on
ENC's domain, decision D4; log 17). -/
def Obligations.PayloadOutsideDomainRefused : Prop :=
  ∀ (p : List Byte) (s : State), s.cfg.cap - 3 < p.length →
    exec (.enc p) s = .refused .payloadTooLong ∧ exec (.htx p) s = .refused .payloadTooLong

/-- The checksum field: the sum of the payload bytes modulo 256, with `ESC` in place of `ETX`; so it is never `ETX`,
and it is `ESC` for exactly two raw sums (the spec marks the last two as its own inference). -/
def Obligations.ChecksumField : Prop :=
  ∀ p : List Byte,
    cks p = (if sum8 p = 0x03#8 then 0x05#8 else sum8 p) ∧
    (sum8 p).toNat = (p.map BitVec.toNat).sum % 256 ∧
    cks p ≠ 0x03#8 ∧
    (cks p = 0x05#8 ↔ sum8 p = 0x03#8 ∨ sum8 p = 0x05#8)

/-- The checksum does not depend on the order of the payload's bytes (spec/40_frame_codec.md, arithmetic of the
codec). -/
def Obligations.ChecksumOrderIndependent : Prop :=
  ∀ p q : List Byte, p.Perm q → sum8 p = sum8 q ∧ cks p = cks q

/-- DEC completes on every byte sequence. It rejects a sequence shorter than 5 bytes or not beginning with the start
marker; without the strict option it accepts every other, whatever the checksum and the last byte. The extents of the
three fields are the spec's decision D3 (log 22). -/
def Obligations.DecodeResult : Prop :=
  ∀ (r : List Byte) (s : State),
    (r.length < 5 ∨ r.head? ≠ some 0x02#8 →
      exec (.dec r) s = .next { s with out := { decResult := some .rejected } }) ∧
    (∀ (a b k e : Byte) (body : List Byte), r = [0x02#8, a, b] ++ body ++ [k, e] →
      s.cfg.strictChecksum = false →
      exec (.dec r) s = .next { s with out := { decResult := some (.accepted ⟨a, b, body⟩) } })

/-- DEC does not verify the checksum by default: two frames that differ in the checksum byte only decode alike, and
both are accepted; the rule's own example has a wrong checksum. -/
def Obligations.DecIgnoresChecksum : Prop :=
  ∀ (a b k k' : Byte) (body : List Byte) (s : State), s.cfg.strictChecksum = false →
    exec (.dec ([0x02#8, a, b] ++ body ++ [k, 0x03#8])) s
      = exec (.dec ([0x02#8, a, b] ++ body ++ [k', 0x03#8])) s ∧
    (∃ f, exec (.dec ([0x02#8, a, b] ++ body ++ [k, 0x03#8])) s
      = .next { s with out := { decResult := some (.accepted f) } }) ∧
    exec (.dec [0x02#8, 0x47#8, 0x31#8, 0x30#8, 0x33#8, 0x48#8, 0x35#8, 0x00#8, 0x03#8]) s
      = .next { s with
          out := { decResult := some (.accepted ⟨0x47#8, 0x31#8, [0x30#8, 0x33#8, 0x48#8, 0x35#8]⟩) } }

/-- The strict option (decision D20, log 33): the frame is accepted when its checksum byte is the transmitted form of
the checksum, and rejected otherwise; the last byte is not examined. -/
def Obligations.StrictChecksumTest : Prop :=
  ∀ (a b k e : Byte) (body : List Byte) (s : State), s.cfg.strictChecksum = true →
    exec (.dec ([0x02#8, a, b] ++ body ++ [k, e])) s = .next { s with
      out := { decResult := some (if k = cks ([a, b] ++ body) then .accepted ⟨a, b, body⟩ else .rejected) } }

/-- Decoding an encoded payload gives it back under either value of the strict option; a payload of fewer than two
bytes gives a frame that DEC rejects (the spec derives the law from ENC and DEC). -/
def Obligations.CodecRoundTrip : Prop :=
  ∀ (strict : Bool) (p : List Byte),
    (∀ (a b : Byte) (body : List Byte), p = a :: b :: body →
      decodeFrame strict (encodeFrame p) = .accepted ⟨a, b, body⟩) ∧
    (p.length < 2 → decodeFrame strict (encodeFrame p) = .rejected)

/-- In an encoded frame the end marker stands at the last offset, and before it only where the payload holds it: the
checksum byte is never the end marker (the spec derives it from the checksum rule). -/
def Obligations.EndMarkerPlaces : Prop :=
  ∀ (p : List Byte) (i : Nat),
    (encodeFrame p).length = p.length + 3 ∧
    ((encodeFrame p)[i]? = some 0x03#8 ↔
      i = p.length + 2 ∨ (1 ≤ i ∧ i ≤ p.length ∧ p[i - 1]? = some 0x03#8))

/-- The format FRAME recognises exactly the frames ENC makes, and gives back their payload. -/
def Obligations.FrameFormatRoundTrip : Prop :=
  ∀ (r p : List Byte), frameFields r = some p ↔ r = encodeFrame p

/-! ## Encodings -/

/-- Decoding the word of an operation within its domain gives the operation back, at every cursor that selects it and
under all parameters. -/
def Obligations.DecodeOfEncode : Prop :=
  ∀ (c : Config) (wr : Nat) (i : Instr), i.wf c = true → i.selectedAt c wr = true →
    decode c wr (encode c i) = .ok i

/-- A port word selects at most one operation: an operation that is decoded is within its domain, is one the cursor
selects, and has that word as its encoding. -/
def Obligations.EncodeOfDecode : Prop :=
  ∀ (c : Config) (wr : Nat) (w : PortWord) (i : Instr), decode c wr w = .ok i →
    encode c i = w ∧ i.wf c = true ∧ i.selectedAt c wr = true

/-- A few words written out from the tables of spec/30_encoding.md, at an empty accumulator and once at a full one. The
numbers of the link states are the spec's decision D16 (log 30), their values here those of configuration TC, and how
`decodeTableWord` tells a received byte from a link state code in the last three clauses is the model's choice (logs 4
and 20). -/
def Obligations.TableWordsDecode : Prop :=
  decode .tc 0 (.rxByte 0b00000011#8) = .ok .rxbEtx ∧
  decode .tc 0 (.rxByte 0b00000110#8) = .ok .rxbAck ∧
  decode .tc 0 (.rxByte 0b00010101#8) = .ok .rxbNak ∧
  decode .tc 0 (.rxByte 0b00000010#8) = .ok (.rxbData 0x02#8) ∧
  decode .tc 64 (.rxByte 0b00000011#8) = .ok (.rxbOvf 0x03#8) ∧
  decode .tc 0 (.lsmStep 4) = .ok (.lsmSend 2) ∧
  decode .tc 0 (.lsmStep 5) = .ok (.lsmWait 2) ∧
  decode .tc 0 (.lsmStep 6) = .ok .lsmIdle ∧
  decode .tc 0 (.lsmStep 7) = .rejected .stateCodeOutOfRange ∧
  decodeTableWord 8 0x00 = some (.lsmSend 0) ∧
  decodeTableWord 8 0x01 = some (.lsmWait 0) ∧
  decodeTableWord 8 0x03 = some .rxbEtx

/-! ## Receive Demultiplexer -/

/-- RXB.OVF: a byte at a full accumulator resets it and is discarded unexamined. That the overflow is taken before the
append, and the byte dropped, is the spec's decision D5 (log 23). -/
def Obligations.OverflowResult : Prop :=
  ∀ (b : Byte) (s : State), s.wr = s.cfg.cap →
    exec (.rxbOvf b) s = .next { s with wr := 0, rx := s.rx ++ [b], out := {} }

/-- RXB.DATA: an ordinary byte is appended at the cursor, and nothing else happens. Which byte is ordinary follows the
order of the classification; with `SOLE_BYTE_DEFERRED` true the two reserved bytes are ordinary at cursor 0 too. -/
def Obligations.DataResult : Prop :=
  ∀ (b : Byte) (s : State), s.wr < s.cfg.cap → b ≠ 0x03#8 →
    ¬ (s.wr = 0 ∧ (b = 0x06#8 ∨ b = 0x15#8) ∧ s.cfg.soleByteDeferred = false) →
    ∃ t, exec (.rxbData b) s = .next t ∧ t.wr = s.wr + 1 ∧ accRead t s.wr = b ∧
      (∀ i, i ≠ s.wr → accRead t i = accRead s i) ∧
      t = { s with acc := t.acc, wr := s.wr + 1, rx := s.rx ++ [b], out := {} }

/-- RXB.ACK: an acknowledgement byte at an empty accumulator raises the acknowledgement at once and leaves the
accumulator empty. Recognition on arrival is the spec's decision D7 (log 25). -/
def Obligations.SoleAckResult : Prop :=
  ∀ s : State, s.wr = 0 → 0 < s.cfg.cap → s.cfg.soleByteDeferred = false →
    ∃ t, exec .rxbAck s = .next t ∧
      t = { s with
        acc := t.acc
        ackFlag := true
        tContact := some s.now
        rx := s.rx ++ [0x06#8]
        out := { ackEvt := true } }

/-- RXB.NAK: a negative-acknowledgement byte at an empty accumulator raises the negative-acknowledgement and does not
touch the contact time (decisions D7 and D9, logs 25 and 27). -/
def Obligations.SoleNakResult : Prop :=
  ∀ s : State, s.wr = 0 → 0 < s.cfg.cap → s.cfg.soleByteDeferred = false →
    ∃ t, exec .rxbNak s = .next t ∧
      t = { s with
        acc := t.acc
        nakFlag := true
        rx := s.rx ++ [0x15#8]
        out := { nakEvt := true } }

/-- RXB.ETX: at an end marker the bytes held, with the marker, are the candidate. With an acknowledgement byte and a
start marker in front the acknowledgement is raised and DEC runs from offset 1, whatever it answers (decision D8, log
26); with a start marker in front DEC runs from offset 0; otherwise nothing happens (decision D6, log 24). An accepted
frame is emitted and refreshes the contact time. The accumulator is reset in every case. -/
def Obligations.EndMarkerResult : Prop :=
  ∀ s : State, s.wr < s.cfg.cap →
    ∃ t, exec .rxbEtx s = .next t ∧
      t = { s with
        acc := t.acc
        wr := 0
        rx := s.rx ++ [0x03#8]
        ackFlag := t.ackFlag
        tContact := t.tContact
        out := { ackEvt := t.out.ackEvt, frameEvt := t.out.frameEvt } } ∧
      (∀ rest, heldBytes s ++ [0x03#8] = 0x06#8 :: 0x02#8 :: rest →
        t.ackFlag = true ∧ t.tContact = some s.now ∧ t.out.ackEvt = true ∧
        t.out.frameEvt = (match decodeFrame s.cfg.strictChecksum (0x02#8 :: rest) with
          | .accepted f => some f
          | .rejected => none)) ∧
      (∀ rest, heldBytes s ++ [0x03#8] = 0x02#8 :: rest →
        t.ackFlag = s.ackFlag ∧ t.out.ackEvt = false ∧
        match decodeFrame s.cfg.strictChecksum (0x02#8 :: rest) with
        | .accepted f => t.out.frameEvt = some f ∧ t.tContact = some s.now
        | .rejected => t.out.frameEvt = none ∧ t.tContact = s.tContact) ∧
      ((heldBytes s ++ [0x03#8]).take 2 ≠ [0x06#8, 0x02#8] → (heldBytes s ++ [0x03#8]).head? ≠ some 0x02#8 →
        t = { s with acc := t.acc, wr := 0, rx := s.rx ++ [0x03#8], out := {} })

/-- RXI: nothing by default; with `SOLE_BYTE_DEFERRED` true a reserved byte that is the only byte held is taken, any
other accumulation is left (decision D7, log 25). -/
def Obligations.ReceiveIdleResult : Prop :=
  ∀ s : State,
    (s.cfg.soleByteDeferred = false ∨ s.wr ≠ 1 ∨ (accRead s 0 ≠ 0x06#8 ∧ accRead s 0 ≠ 0x15#8) →
      exec .rxi s = .next { s with out := {} }) ∧
    (s.cfg.soleByteDeferred = true → s.wr = 1 → accRead s 0 = 0x06#8 →
      exec .rxi s = .next { s with
        wr := 0, ackFlag := true, tContact := some s.now, out := { ackEvt := true } }) ∧
    (s.cfg.soleByteDeferred = true → s.wr = 1 → accRead s 0 = 0x15#8 →
      exec .rxi s = .next { s with wr := 0, nakFlag := true, out := { nakEvt := true } })

/-- The arms of RXB, chosen by the classification of the byte, together are the whole operation of the spec's
pseudocode, in every state and for every byte. -/
def Obligations.ArmsAreReceiveByte : Prop :=
  ∀ (b : Byte) (s : State), exec (decodeRxByte s.cfg s.wr b) s = rxbWhole b s

/-- What RXB and RXI leave alone: they never write the link state or the action timestamp, never transmit, never clear
a flag; an RXB adds the byte that arrived to the rx history and RXI adds none; a byte that raises no event leaves the
flags and the contact time, and a negative-acknowledgement leaves the contact time too (decision D9, log 27). -/
def Obligations.DemultiplexerFrame : Prop :=
  ∀ (i : Instr) (s t : State), exec i s = .next t →
    ((∃ b, i = .rxbOvf b) ∨ i = .rxbEtx ∨ i = .rxbAck ∨ i = .rxbNak ∨ (∃ b, i = .rxbData b) ∨ i = .rxi) →
    t.cfg = s.cfg ∧ t.link = s.link ∧ t.tAction = s.tAction ∧ t.tx = s.tx ∧ t.now = s.now ∧
    t.pending = s.pending ∧ t.draws = s.draws ∧ t.accEpoch = s.accEpoch ∧
    (t.ackFlag = (s.ackFlag || t.out.ackEvt)) ∧ (t.nakFlag = (s.nakFlag || t.out.nakEvt)) ∧
    (t.tContact = if t.out.ackEvt = true ∨ t.out.frameEvt.isSome = true then some s.now else s.tContact) ∧
    t.out.tx = [] ∧ t.out.hostRefused = false ∧ t.out.encResult = none ∧ t.out.decResult = none ∧
    (i = .rxi → t.rx = s.rx) ∧
    (∀ b, (i = .rxbOvf b ∨ i = .rxbData b ∨ (i = .rxbEtx ∧ b = 0x03#8) ∨ (i = .rxbAck ∧ b = 0x06#8) ∨
      (i = .rxbNak ∧ b = 0x15#8)) → t.rx = s.rx ++ [b])

/-- What an operation stores in the accumulator: the appending arms store their byte at the index the cursor had, and
every other cell reads as before; every other operation but RST stores nothing. -/
def Obligations.AccumulatorFrame : Prop :=
  ∀ (i : Instr) (s t : State), exec i s = .next t → i ≠ .rst →
    (∀ b, (i = .rxbData b ∨ (i = .rxbEtx ∧ b = 0x03#8) ∨ (i = .rxbAck ∧ b = 0x06#8) ∨ (i = .rxbNak ∧ b = 0x15#8)) →
      accRead t s.wr = b ∧ ∀ a, a ≠ s.wr → accRead t a = accRead s a) ∧
    ((∃ b, i = .rxbOvf b) ∨ i = .rxi ∨ (∃ k, i = .lsmSend k) ∨ (∃ k, i = .lsmWait k) ∨ i = .lsmIdle ∨
      (∃ p, i = .htx p) ∨ (∃ p, i = .enc p) ∨ (∃ r, i = .dec r) →
      ∀ a, accRead t a = accRead s a)

/-- One operation raises at most one event of each kind; an acknowledgement and a frame together come only from an end
marker, and a negative-acknowledgement never comes with another event. -/
def Obligations.EventsExclusive : Prop :=
  ∀ (i : Instr) (s t : State), exec i s = .next t →
    (t.out.ackEvt = true → t.out.frameEvt.isSome = true → i = .rxbEtx) ∧
    (t.out.nakEvt = true → t.out.ackEvt = false ∧ t.out.frameEvt = none) ∧
    (t.out.frameEvt.isSome = true → i = .rxbEtx) ∧
    (t.out.ackEvt = true → i = .rxbEtx ∨ i = .rxbAck ∨ i = .rxi) ∧
    (t.out.nakEvt = true → i = .rxbNak ∨ i = .rxi)

/-- Every acknowledgement event sets `ack_flag` and the contact time, and comes from an end marker, a sole byte or a
receive-idle strobe; without the event the demultiplexer does not set the flag. -/
def Obligations.AckEventEffects : Prop :=
  ∀ (i : Instr) (s t : State), exec i s = .next t →
    (t.out.ackEvt = true → t.ackFlag = true ∧ t.tContact = some s.now ∧ (i = .rxbEtx ∨ i = .rxbAck ∨ i = .rxi)) ∧
    (t.ackFlag = true → s.ackFlag = false → t.out.ackEvt = true)

/-- Every frame event refreshes the contact time, carries a body of at most `CAP - 5` bytes and sets no flag; whatever
the type tag. -/
def Obligations.FrameEventEffects : Prop :=
  ∀ (i : Instr) (s t : State) (f : Frame), exec i s = .next t → t.out.frameEvt = some f →
    t.tContact = some s.now ∧ f.body.length + 5 ≤ s.cfg.cap ∧
    t.nakFlag = s.nakFlag ∧ (t.out.ackEvt = false → t.ackFlag = s.ackFlag)

/-- The demultiplexer does not look at the link state, at the flags' old values, or at what was last transmitted: it
raises the same events and leaves the same accumulator in every phase. -/
def Obligations.DemultiplexerBlindToPhase : Prop :=
  ∀ (i : Instr) (s t : State) (l : LinkState) (ack nak : Bool) (act : Nat) (sent : List Byte) (o : Outputs),
    ((∃ b, i = decodeRxByte s.cfg s.wr b) ∨ i = .rxi) → exec i s = .next t →
    ∃ u, exec i { s with link := l, ackFlag := ack, nakFlag := nak, tAction := act, tx := sent, out := o }
        = .next u ∧
      u.out = t.out ∧ u.wr = t.wr ∧ u.acc = t.acc ∧ u.tContact = t.tContact ∧ u.rx = t.rx ∧
      u.link = l ∧ u.tAction = act ∧ u.tx = sent

/-- Feeding an encoded payload byte by byte, from an empty accumulator, emits exactly one frame, that of the payload,
raises no acknowledgement and no negative-acknowledgement, and leaves the accumulator empty, provided no byte of the
payload is the end marker. It holds under both strict options and both readings of the sole byte. The spec
derives the law from those of ENC, DEC and RXB; the bytes are presented in the model's queue (log 2). -/
def Obligations.FedFrameIsReceived : Prop :=
  ∀ (s : State) (a b : Byte) (body : List Byte) (time : Nat) (rest : List Stimulus),
    s.cfg.wf = true → s.wr = 0 → (a :: b :: body).length ≤ s.cfg.cap - 3 → 0x03#8 ∉ a :: b :: body →
    s.pending = Trace.rxframe (a :: b :: body) time ++ rest →
    ∃ outs t, runOutputs (body.length + 5) s = some (outs, t) ∧
      outs.filterMap Outputs.frameEvt = [⟨a, b, body⟩] ∧
      (∀ o ∈ outs, o.ackEvt = false ∧ o.nakEvt = false ∧ o.tx = []) ∧
      t.wr = 0 ∧ t.tContact = some (time % 2 ^ s.cfg.timeW) ∧
      t.ackFlag = s.ackFlag ∧ t.nakFlag = s.nakFlag ∧ t.link = s.link ∧ t.pending = rest

/-- An acknowledgement byte in front of a frame raises exactly one acknowledgement and one frame under both readings of
the sole byte (conflict C1, decision D7, log 25), for every payload of ENC's domain where the byte is taken on arrival;
where it is held, the accumulator must have room for it beside the frame. -/
def Obligations.PrefixedFrameIsReceived : Prop :=
  ∀ (s : State) (a b : Byte) (body : List Byte) (time : Nat) (rest : List Stimulus),
    s.cfg.wf = true → s.wr = 0 → (a :: b :: body).length ≤ s.cfg.cap - 3 →
    (s.cfg.soleByteDeferred = true → (a :: b :: body).length + 4 ≤ s.cfg.cap) → 0x03#8 ∉ a :: b :: body →
    s.pending = Trace.rxs (0x06#8 :: encodeFrame (a :: b :: body)) time ++ rest →
    ∃ outs t, runOutputs (body.length + 6) s = some (outs, t) ∧
      outs.filterMap Outputs.frameEvt = [⟨a, b, body⟩] ∧
      (outs.filter Outputs.ackEvt).length = 1 ∧ (∀ o ∈ outs, o.nakEvt = false) ∧
      t.wr = 0 ∧ t.ackFlag = true ∧ t.nakFlag = s.nakFlag ∧ t.tContact = some (time % 2 ^ s.cfg.timeW) ∧
      t.link = s.link ∧ t.pending = rest

/-! ## Link State Machine -/

/-- LSM.SEND: the step's command is transmitted, the action time stamped, both flags cleared, and the machine goes to
the wait state. Clearing `nak_flag` is the spec's decision D14 (log 28). -/
def Obligations.SendResult : Prop :=
  ∀ (s : State) (k : Nat) (p : List Byte), s.cfg.wf = true → s.link = .send k → s.cfg.initCmd[k]? = some p →
    exec (.lsmSend k) s = .next { s with
      tx := s.tx ++ encodeFrame p
      tAction := s.now
      ackFlag := false
      nakFlag := false
      link := .wait k
      out := { tx := encodeFrame p } }

/-- LSM.WAIT with the acknowledgement flag set: the machine advances, whatever the time; the flags are left as they
are and nothing is transmitted. -/
def Obligations.WaitAdvancesOnAck : Prop :=
  ∀ (s : State) (k : Nat), s.link = .wait k → k < s.cfg.nSteps → s.ackFlag = true →
    exec (.lsmWait k) s = .next { s with
      link := if k + 1 < s.cfg.nSteps then .send (k + 1) else .idle, out := {} }

/-- LSM.WAIT and a negative-acknowledgement: at `NAK_OK_STEP` the machine advances on it; at every other step the flag
is not read, which the spec marks as its own inference. -/
def Obligations.WaitAndNak : Prop :=
  ∀ (s : State) (k : Nat), s.link = .wait k → k < s.cfg.nSteps →
    (k = s.cfg.nakOkStep → s.nakFlag = true →
      exec (.lsmWait k) s = .next { s with
        link := if k + 1 < s.cfg.nSteps then .send (k + 1) else .idle, out := {} }) ∧
    (k ≠ s.cfg.nakOkStep → ∀ (nak : Bool) (t : State), exec (.lsmWait k) s = .next t →
      exec (.lsmWait k) { s with nakFlag := nak } = .next { t with nakFlag := nak })

/-- LSM.WAIT without an advance condition: the machine reverts to the send state exactly when more than 1000 ms have
elapsed since the action time, modulo the counter's width; at exactly 1000 it stays. Nothing is transmitted and no
retry is counted. -/
def Obligations.WaitTimesOut : Prop :=
  ∀ (s : State) (k : Nat), s.link = .wait k → k < s.cfg.nSteps → s.ackFlag = false →
    ¬ (k = s.cfg.nakOkStep ∧ s.nakFlag = true) →
    exec (.lsmWait k) s = .next { s with
      link := if ((s.now : Int) - (s.tAction : Int)) % (2 : Int) ^ s.cfg.timeW > 1000 then .send k else .wait k
      out := {} }

/-- LSM.IDLE: nothing changes and nothing is transmitted; and IDLE is left by a reset only. -/
def Obligations.IdleIsTerminal : Prop :=
  ∀ s : State, s.link = .idle →
    exec .lsmIdle s = .next { s with out := {} } ∧
    ∀ (i : Instr) (t : State), exec i s = .next t → i ≠ .rst → t.link = .idle

/-- The arms of LSM, chosen by the link state code, together are the whole operation of the spec's pseudocode, in every
link state the spec has. -/
def Obligations.ArmsAreStepCheck : Prop :=
  ∀ s : State, s.link.inRange s.cfg = true →
    ∃ i, decode s.cfg s.wr (.lsmStep (s.link.code s.cfg)) = .ok i ∧ exec i s = lsmWhole s

/-- What LSM never reads and never writes: the accumulator and its cursor, the contact time, the histories, the last
outputs, what is presented next. Two states that differ in these alone take the same step, and each keeps its own; the
`tx` history only gains what this step transmits. -/
def Obligations.StepCheckInputs : Prop :=
  ∀ (i : Instr) (s t : State) (m : Memory) (wr epoch draw : Nat) (contact : Option Nat) (got sent : List Byte)
    (o : Outputs) (next : List Stimulus),
    ((∃ k, i = .lsmSend k) ∨ (∃ k, i = .lsmWait k) ∨ i = .lsmIdle) → exec i s = .next t →
    exec i { s with
        acc := m, wr := wr, accEpoch := epoch, tContact := contact, rx := got, tx := sent, out := o
        pending := next, draws := draw }
      = .next { t with
        acc := m, wr := wr, accEpoch := epoch, tContact := contact, rx := got, tx := sent ++ t.out.tx
        pending := next, draws := draw } ∧
    t.acc = s.acc ∧ t.wr = s.wr ∧ t.tContact = s.tContact ∧ t.rx = s.rx ∧ t.tx = s.tx ++ t.out.tx ∧
    t.cfg = s.cfg ∧ t.now = s.now ∧ t.pending = s.pending ∧ t.draws = s.draws ∧ t.accEpoch = s.accEpoch ∧
    t.out = { tx := t.out.tx } ∧
    ((∀ k, i ≠ .lsmSend k) → t.tAction = s.tAction ∧ t.tx = s.tx ∧ t.ackFlag = s.ackFlag ∧ t.nakFlag = s.nakFlag)

/-- `state` is written only by RST and LSM, and LSM writes the successor or nothing: of `SEND_k` it is `WAIT_k`; of
`WAIT_k` it is `SEND_(k+1)`, or IDLE at the last step, or `SEND_k` on a timeout; IDLE has none. The code never exceeds
`2*N_STEPS`. -/
def Obligations.LinkStateSuccessors : Prop :=
  ∀ (i : Instr) (s t : State), exec i s = .next t → i ≠ .rst →
    (t.link = s.link ∨
      (∃ k, i = .lsmSend k ∧ s.link = .send k ∧ t.link = .wait k) ∨
      (∃ k, i = .lsmWait k ∧ s.link = .wait k ∧
        ((k + 1 < s.cfg.nSteps ∧ t.link = .send (k + 1)) ∨ (k + 1 = s.cfg.nSteps ∧ t.link = .idle) ∨
          (1000 < elapsed s.cfg s.now s.tAction ∧ t.link = .send k)))) ∧
    (s.link.inRange s.cfg = true → t.link.code t.cfg ≤ 2 * t.cfg.nSteps)

/-- Under the environment's assumption on time the elapsed count is the true number of milliseconds, across the wrap
of the counter. -/
def Obligations.ElapsedIsTrueTime : Prop :=
  ∀ (c : Config) (t0 t1 : Nat), t0 ≤ t1 → t1 < t0 + 2 ^ c.timeW →
    elapsed c (c.time t1) (c.time t0) = t1 - t0

/-- With prompt acknowledgements, from the first send state with an empty accumulator, the machine sends every step's
command exactly once in the order of the table and is in IDLE after exactly `2 * N_STEPS` step-checks, whatever the
times. In each turn the acknowledgement byte is followed by the receive-idle strobe, so the statement holds under both
readings of the sole byte. The spec derives the property from the arms of LSM; the strobes are presented in the model's
queue (log 2). -/
def Obligations.PromptAcksReachIdle : Prop :=
  ∀ (s : State) (times : List (Nat × Nat × Nat × Nat)) (rest : List Stimulus),
    s.cfg.wf = true → s.link = .send 0 → s.wr = 0 → times.length = s.cfg.nSteps →
    s.pending = (times.flatMap fun t =>
      Trace.lsm t.1 ++ Trace.rx 0x06#8 t.2.1 ++ Trace.rxi t.2.2.1 ++ Trace.lsm t.2.2.2) ++ rest →
    ∃ t, core.run (4 * s.cfg.nSteps) s = .next t ∧ t.link = .idle ∧ t.pending = rest ∧
      t.tx = s.tx ++ (s.cfg.initCmd.map encodeFrame).flatten

/-- Retries are unbounded: in a wait state that nothing answers, with a step-check after 1001 ms and another for the
send, the same frame goes out again any number of times and the machine is in the same wait state (the strobes are
presented in the model's queue, log 2). -/
def Obligations.RetriesUnbounded : Prop :=
  ∀ (n : Nat) (s : State) (k : Nat) (p : List Byte) (rest : List Stimulus),
    s.cfg.wf = true → s.link = .wait k → s.cfg.initCmd[k]? = some p →
    s.ackFlag = false → (k = s.cfg.nakOkStep → s.nakFlag = false) →
    1001 < 2 ^ s.cfg.timeW → s.tAction < 2 ^ s.cfg.timeW →
    s.pending = ((List.range n).flatMap fun j =>
      Trace.lsm (s.tAction + 1001 * (j + 1)) ++ Trace.lsm (s.tAction + 1001 * (j + 1))) ++ rest →
    ∃ t, core.run (2 * n) s = .next t ∧ t.link = .wait k ∧ t.pending = rest ∧
      t.tx = s.tx ++ (List.replicate n (encodeFrame p)).flatten

/-! ## Host port and reset -/

/-- HTX in IDLE: the frame is transmitted, the action time stamped, both flags cleared, the state stays IDLE (decision
D19, log 32). -/
def Obligations.HostSendAccepted : Prop :=
  ∀ (s : State) (p : List Byte), s.link = .idle → p.length ≤ s.cfg.cap - 3 →
    exec (.htx p) s = .next { s with
      tx := s.tx ++ encodeFrame p
      tAction := s.now
      ackFlag := false
      nakFlag := false
      out := { tx := encodeFrame p } }

/-- HTX outside IDLE: the refusal pulse and nothing else (decision D19, log 32). -/
def Obligations.HostSendRefused : Prop :=
  ∀ (s : State) (p : List Byte), s.link ≠ .idle → p.length ≤ s.cfg.cap - 3 →
    exec (.htx p) s = .next { s with out := { hostRefused := true } }

/-- Who owns the transmitter and the flags: an operation writes to `tx` only as a send of LSM outside IDLE or as a host
send in IDLE; a set flag is cleared only by these two or by a reset (the spec derives it). -/
def Obligations.PhaseOwnership : Prop :=
  ∀ (i : Instr) (s t : State), exec i s = .next t →
    (t.tx ≠ s.tx →
      (s.link ≠ .idle ∧ ∃ k, i = .lsmSend k) ∨ (s.link = .idle ∧ ∃ p, i = .htx p)) ∧
    ((s.ackFlag = true ∧ t.ackFlag = false) ∨ (s.nakFlag = true ∧ t.nakFlag = false) →
      i = .rst ∨ (s.link ≠ .idle ∧ ∃ k, i = .lsmSend k) ∨ (s.link = .idle ∧ ∃ p, i = .htx p)) ∧
    (∃ bs, t.tx = s.tx ++ bs ∧ t.out.tx = bs)

/-- The level outputs show the registers as they stand: `state` is the code of the link state, `2*k` for `SEND_k`,
`2*k + 1` for `WAIT_k` and `2*N_STEPS` for IDLE (decision D16, log 30), and `idle` is that of IDLE; a look at them has no
side effect on a register; the host sets no flag by any of its operations, and a codec call leaves both. -/
def Obligations.LevelOutputs : Prop :=
  ∀ s : State,
    (∀ k, s.link = .send k → stateLevel s = 2 * k) ∧
    (∀ k, s.link = .wait k → stateLevel s = 2 * k + 1) ∧
    (s.link = .idle → stateLevel s = 2 * s.cfg.nSteps) ∧
    (s.link.inRange s.cfg = true → (idleLevel s = true ↔ stateLevel s = 2 * s.cfg.nSteps)) ∧
    (∀ t, perform .observe s = .next t → t = { s with out := {} }) ∧
    (∀ (i : Instr) (t : State), exec i s = .next t → (∃ p, i = .htx p) ∨ i = .rst →
      (t.ackFlag = true → s.ackFlag = true) ∧ (t.nakFlag = true → s.nakFlag = true)) ∧
    (∀ (i : Instr) (t : State), exec i s = .next t → (∃ p, i = .enc p) ∨ (∃ r, i = .dec r) →
      t.ackFlag = s.ackFlag ∧ t.nakFlag = s.nakFlag)

/-- Looking at the levels changes nothing but the time, and `connected` is then true exactly when less than 10000 ms,
counted modulo the counter's width, have passed since the last contact: it falls at 10000 (decision D18, log 31), and
it reads true again after the counter wraps. (The queue and the draw are the model's own, logs 2 and 39.) -/
def Obligations.ConnectedLevel : Prop :=
  ∀ (s : State) (t0 t1 : Nat) (rest : List Stimulus), s.cfg.wf = true →
    s.pending = { op := .observe, now := t1 } :: rest → s.tContact = some (t0 % 2 ^ s.cfg.timeW) → t0 ≤ t1 →
    ∃ t, step s = .next t ∧
      t = { s with pending := rest, now := t1 % 2 ^ s.cfg.timeW, draws := s.draws + 1, out := {} } ∧
      connectedLevel t = decide ((t1 - t0) % 2 ^ s.cfg.timeW < 10000)

/-- RST: the first send state, an empty accumulator, no flag, no contact; nothing is transmitted and the parameters and
histories stay. The values are the spec's decisions D10 to D12 (logs 8, 9, 11). `t_action` and the accumulator's cells
are left open: the statement says nothing of them. -/
def Obligations.ResetResult : Prop :=
  ∀ s : State, ∃ t, exec .rst s = .next t ∧
    t = { s with
      link := .send 0
      wr := 0
      ackFlag := false
      nakFlag := false
      tContact := none
      out := {}
      tAction := t.tAction
      acc := t.acc
      accEpoch := t.accEpoch }

/-- The state right after reset, under any parameters: the values of decisions D10 to D12 (logs 9, 11), and the
invariant where the parameters are ones R4 and R5 allow. -/
def Obligations.ResetState : Prop :=
  ∀ c : Config,
    (State.resetWith c).link = .send 0 ∧ (State.resetWith c).wr = 0 ∧ (State.resetWith c).ackFlag = false ∧
    (State.resetWith c).nakFlag = false ∧ (State.resetWith c).tContact = none ∧ (State.resetWith c).cfg = c ∧
    (c.wf = true → Inv (State.resetWith c))

/-! ## The machine -/

/-- When a stimulus's port word decodes to an operation (for a step-check, from a link state that the spec has: another
has no code of its own), the step is that operation's `exec` in the state whose ports have taken the stimulus: it leaves
the queue, `now` carries its count modulo the counter's width, a new draw begins. One operation a step, the queue, the
held `now` port and the draw are the model's choices (logs 1, 2, 6 and 39). -/
def Obligations.StepRunsDecoded : Prop :=
  ∀ (s : State) (st : Stimulus) (rest : List Stimulus) (w : PortWord) (i : Instr),
    s.cfg.wf = true → s.pending = st :: rest → (st.op = .lsm → s.link.inRange s.cfg = true) →
    portWord s st.op = some w → decode s.cfg s.wr w = .ok i →
    step s = exec i { s with pending := rest, now := st.now % 2 ^ s.cfg.timeW, draws := s.draws + 1 }

/-- A step without an operation changes no register: with no stimulus presented, or with a look at the levels, the
pulses are low afterwards and nothing else but the queue, `now` and the model's own counter differs (the model's
choices, logs 2, 6, 13 and 39). -/
def Obligations.StepWithoutOperation : Prop :=
  ∀ s : State, s.cfg.wf = true →
    (s.pending = [] → step s = .next { s with draws := s.draws + 1, out := {} }) ∧
    (∀ (time : Nat) (rest : List Stimulus), s.pending = { op := .observe, now := time } :: rest →
      step s = .next { s with
        pending := rest, now := time % 2 ^ s.cfg.timeW, draws := s.draws + 1, out := {} })

/-- The operation that `withFetchWord` presents after reset is the one the next step runs, in the state after reset with
what the operation's selection depends on set to select it, and it answers a next state. How a table word is read, the
parameters of State.reset, how it is presented and the draw are the model's choices (logs 20, 4, 21 and 39). -/
def Obligations.FetchWordRunsNext : Prop :=
  ∀ (nbits w : Nat) (i : Instr), decodeTableWord nbits w = some i →
    step (State.reset.withFetchWord nbits w) = exec i { makeSelect i State.reset with draws := 1 } ∧
    ∃ t, exec i { makeSelect i State.reset with draws := 1 } = .next t ∧ t.pending = []

/-- Every step keeps the invariant: the parameters, the cursor's bound, the link state's range, the accumulator's
canonical form and bound, no end marker and no sole reserved byte left in the accumulator, the counter widths. -/
def Obligations.StepKeepsInvariant : Prop :=
  ∀ s t : State, Inv s → step s = .next t → Inv t

/-- No admitted input stops the machine: from a state of the invariant, a step on a stimulus whose payload is in the
domain, or on none, answers a next state. -/
def Obligations.NoStopOnAdmittedInput : Prop :=
  ∀ s : State, Inv s → (∀ st ∈ s.pending.head?, st.op.admitted s.cfg = true) → ∃ t, step s = .next t

/-- The cursor never exceeds the capacity, and only RST, RXB and RXI write it. -/
def Obligations.CursorBound : Prop :=
  ∀ (i : Instr) (s t : State), s.wr ≤ s.cfg.cap → exec i s = .next t →
    t.wr ≤ t.cfg.cap ∧
    (t.wr ≠ s.wr → i = .rst ∨ i = .rxi ∨ (∃ b, i = .rxbOvf b) ∨ i = .rxbEtx ∨ i = .rxbAck ∨ i = .rxbNak ∨
      ∃ b, i = .rxbData b)

/-- No operation writes the parameters: the command table and the step that tolerates a negative-acknowledgement are
the same after every step. -/
def Obligations.ParametersNeverWritten : Prop :=
  ∀ s t : State, step s = .next t → t.cfg = s.cfg

/-- What the spec leaves unspecified at reset is never read: two states that differ in `t_action` outside a wait state
and in accumulator cells at or beyond the cursor take the same step, show the same outputs, and still differ in these
alone (the spec derives it). -/
def Obligations.UnspecifiedNeverRead : Prop :=
  ∀ s t s' : State, SameButUnspecified s t → step s = .next s' →
    ∃ t', step t = .next t' ∧ SameButUnspecified s' t' ∧ connectedLevel s' = connectedLevel t'

/-- The entry to each error is the state change of the taxonomy's table and nothing more (decision D24, log 35). -/
def Obligations.ErrorEntries : Prop :=
  ∀ s : State,
    takeError .malformed s = { s with wr := 0 } ∧
    takeError .overflow s = { s with wr := 0 } ∧
    (∀ k, s.link = .wait k → takeError .ackTimeout s = { s with link := .send k }) ∧
    takeError .nakSeen s = { s with nakFlag := true, out := { s.out with nakEvt := true } } ∧
    takeError .unknownTag s = s ∧ takeError .contactLost s = s ∧
    takeError .hostRefused s = { s with out := { s.out with hostRefused := true } }

/-- A byte and a step-check in one cycle: the byte first, so an acknowledgement that arrives in the cycle is seen by
that step-check (decision D2, log 1). -/
def Obligations.SameCycleByteFirst : Prop :=
  ∀ (s : State) (k time : Nat) (rest : List Stimulus),
    s.cfg.wf = true → s.link = .wait k → k < s.cfg.nSteps → s.wr = 0 → s.cfg.soleByteDeferred = false →
    s.pending = Trace.sameCycle 0x06#8 time ++ rest →
    ∃ t, core.run 2 s = .next t ∧ t.pending = rest ∧
      t.link = if k + 1 < s.cfg.nSteps then .send (k + 1) else .idle

/-- Where the machine stops by the model's own choice: an arm the state does not select is refused, and `step` never
selects such an arm (log 15); a step-check in a link state beyond the table faults, not taken as IDLE, and so does a
received byte, whichever it is, with the cursor above `CAP` (log 16); parameters that break R4 or R5 are refused (log
18). -/
def Obligations.StopsByName : Prop :=
  ∀ s : State,
    (∀ i, selected i s = false → exec i s = .refused .notSelected) ∧
    step s ≠ .refused .notSelected ∧
    (∀ (st : Stimulus) (rest : List Stimulus), s.cfg.wf = true → s.link.inRange s.cfg = false →
      s.pending = st :: rest → st.op = .lsm → step s = .fault .linkStateOutOfRange) ∧
    (∀ (b : Byte) (time : Nat) (rest : List Stimulus), s.cfg.wf = true → s.cfg.cap < s.wr →
      s.pending = { op := .rx b, now := time } :: rest → step s = .fault .accIndexOutOfRange) ∧
    (∀ i, (i = .rxbEtx ∨ ∃ b, i = .rxbData b ∧ b ≠ 0x03#8) → s.cfg.cap < s.wr →
      exec i s = .fault .accIndexOutOfRange) ∧
    (s.cfg.wf = false → step s = .refused .badParameters)
end

