-- ==== Sys2Proof/Laws/Codec.lean ====
section
/-! SUPPORT. The codec's functions and the elapsed time in terms of exact arithmetic. -/

namespace Sys2Proof.Machine

/-- The sum in natural numbers. -/
theorem sum8_toNat (p : List Byte) : (sum8 p).toNat = (p.map BitVec.toNat).sum % 256 := by
  induction p with
  | nil => rfl
  | cons b p ih => simp [sum8, BitVec.toNat_add, ih]

theorem cks_ne_etx (p : List Byte) : cks p ≠ ETX := by
  unfold cks
  split
  · decide
  · assumption

/-- DEC of a sequence that is long enough and begins with the start marker. -/
theorem decodeFrame_of_shape (strict : Bool) (a b k e : Byte) (body : List Byte) :
    decodeFrame strict ([STX, a, b] ++ body ++ [k, e]) =
      if strict = true ∧ k ≠ cks ([a, b] ++ body) then .rejected else .accepted ⟨a, b, body⟩ := by
  have e1 : ([STX, a, b] ++ body ++ [k, e]).length = body.length + 5 := by simp
  have e2 : framePayload ([STX, a, b] ++ body ++ [k, e]) = [a, b] ++ body := by
    have : ([STX, a, b] ++ body ++ [k, e]) = STX :: (([a, b] ++ body) ++ [k, e]) := by simp
    rw [framePayload, e1, this, List.drop_succ_cons, List.drop_zero, List.take_left' (by simp)]
  have e3 : ([STX, a, b] ++ body ++ [k, e]).getD (body.length + 3) 0#8 = k := by
    simp
  have e4 : (([STX, a, b] ++ body ++ [k, e]).drop 3).take body.length = body := by simp
  rw [decodeFrame, e1, e2]
  simp only [Nat.add_sub_cancel, show body.length + 5 - 2 = body.length + 3 from rfl, e3, e4]
  simp

theorem encodeFrame_cons (a b : Byte) (body : List Byte) :
    encodeFrame (a :: b :: body) = [STX, a, b] ++ body ++ [cks (a :: b :: body), ETX] := by
  simp [encodeFrame]

/-- The elapsed time is the difference of the two counts modulo `2^TIME_W`. -/
theorem elapsed_int (c : Config) (now t : Nat) :
    ((elapsed c now t : Nat) : Int) = ((now : Int) - t) % (2 : Int) ^ c.timeW := by
  have hp : t % 2 ^ c.timeW < 2 ^ c.timeW := Nat.mod_lt _ (by positivity)
  unfold elapsed
  push_cast [Nat.cast_sub (le_of_lt hp)]
  rw [show (now : Int) + (2 ^ c.timeW - t % 2 ^ c.timeW) = (now - t % 2 ^ c.timeW) + 2 ^ c.timeW by ring]
  rw [Int.add_emod_right, Int.sub_emod, Int.emod_emod_of_dvd _ (dvd_refl _), ← Int.sub_emod]

end Sys2Proof.Machine
end

