-- ==== Sys2Proof/Laws/Memory.lean ====
section
/-! SUPPORT. The accumulator's cells: read after write, the canonical form, and the space of the indices. -/

namespace Sys2Proof.Machine

theorem Memory.read_write_same (m : Memory) (i : Nat) (b : Byte) :
    Memory.read? (Memory.write m i b) i = some b := by
  induction m with
  | nil => simp [Memory.write, Memory.read?]
  | cons c m ih =>
    obtain ⟨a, x⟩ := c
    simp only [Memory.write]
    split
    · simp [Memory.read?]
    · split
      · simp [Memory.read?]
      · next h1 h2 => simp [Memory.read?, Ne.symm h2, ih]

theorem Memory.read_write_other (m : Memory) (i j : Nat) (b : Byte) (h : j ≠ i) :
    Memory.read? (Memory.write m i b) j = Memory.read? m j := by
  induction m with
  | nil => simp [Memory.write, Memory.read?, Ne.symm h]
  | cons c m ih =>
    obtain ⟨a, x⟩ := c
    simp only [Memory.write]
    split
    · simp [Memory.read?, Ne.symm h]
    · split
      · next _ h2 => subst h2; simp [Memory.read?, Ne.symm h]
      · simp [Memory.read?, ih]

/-- The indices that a write lists: the one written, and those listed before. -/
theorem Memory.mem_write (m : Memory) (i : Nat) (b : Byte) (c : Host.Cell)
    (h : c ∈ Memory.write m i b) : c = (i, b) ∨ c ∈ m := by
  induction m with
  | nil => simpa [Memory.write] using h
  | cons d m ih =>
    obtain ⟨a, x⟩ := d
    simp only [Memory.write] at h
    split at h
    · simpa using h
    · split at h
      · rcases List.mem_cons.1 h with h | h
        · exact .inl h
        · exact .inr (List.mem_cons_of_mem _ h)
      · rcases List.mem_cons.1 h with h | h
        · exact .inr (by simp [h])
        · rcases ih h with h | h
          · exact .inl h
          · exact .inr (List.mem_cons_of_mem _ h)

theorem Memory.wf_nil : Memory.wf [] = true := rfl

/-- A cell in front of a canonical memory with greater indices only. -/
theorem Memory.wf_cons (a : Nat) (x : Byte) (m : Memory) :
    Memory.wf ((a, x) :: m) = true ↔ (∀ c ∈ m, a < c.1) ∧ Memory.wf m = true := by
  induction m generalizing a x with
  | nil => simp [Memory.wf]
  | cons d m ih =>
    obtain ⟨b, y⟩ := d
    rw [Memory.wf, Bool.and_eq_true, decide_eq_true_iff, ih b y]
    constructor
    · rintro ⟨hab, hb, hm⟩
      refine ⟨fun c hc => ?_, hb, hm⟩
      rcases List.mem_cons.1 hc with rfl | hc
      · exact hab
      · exact lt_trans hab (hb c hc)
    · rintro ⟨h, hb, hm⟩
      exact ⟨h _ (List.mem_cons_self ..), hb, hm⟩

/-- A write keeps the canonical form. -/
theorem Memory.wf_write (m : Memory) (i : Nat) (b : Byte) (h : Memory.wf m = true) :
    Memory.wf (Memory.write m i b) = true := by
  induction m with
  | nil => rfl
  | cons d m ih =>
    obtain ⟨a, x⟩ := d
    have hd := (Memory.wf_cons a x m).1 h
    simp only [Memory.write]
    split
    · next hi =>
      refine (Memory.wf_cons ..).2 ⟨fun c hc => ?_, h⟩
      rcases List.mem_cons.1 hc with rfl | hc
      · exact hi
      · exact lt_trans hi (hd.1 c hc)
    · next hi =>
      split
      · next he => subst he; exact (Memory.wf_cons ..).2 hd
      · next hne =>
        refine (Memory.wf_cons ..).2 ⟨fun c hc => ?_, ih hd.2⟩
        rcases Memory.mem_write m i b c hc with rfl | hc
        · show a < i
          omega
        · exact hd.1 c hc

end Sys2Proof.Machine
end

