-- ==== Sys2Proof/Laws/State.lean ====
section
/-! SUPPORT. One lemma per field and per update of the state: what each named operation leaves in each field. -/

namespace Sys2Proof.Machine

@[simp] theorem quiet_cfg (s : State) : (quiet s).cfg = s.cfg := rfl
@[simp] theorem quiet_link (s : State) : (quiet s).link = s.link := rfl
@[simp] theorem quiet_wr (s : State) : (quiet s).wr = s.wr := rfl
@[simp] theorem quiet_tAction (s : State) : (quiet s).tAction = s.tAction := rfl
@[simp] theorem quiet_tContact (s : State) : (quiet s).tContact = s.tContact := rfl
@[simp] theorem quiet_ackFlag (s : State) : (quiet s).ackFlag = s.ackFlag := rfl
@[simp] theorem quiet_nakFlag (s : State) : (quiet s).nakFlag = s.nakFlag := rfl
@[simp] theorem quiet_acc (s : State) : (quiet s).acc = s.acc := rfl
@[simp] theorem quiet_now (s : State) : (quiet s).now = s.now := rfl
@[simp] theorem quiet_rx (s : State) : (quiet s).rx = s.rx := rfl
@[simp] theorem quiet_tx (s : State) : (quiet s).tx = s.tx := rfl
@[simp] theorem quiet_out (s : State) : (quiet s).out = {} := rfl
@[simp] theorem quiet_pending (s : State) : (quiet s).pending = s.pending := rfl
@[simp] theorem quiet_draws (s : State) : (quiet s).draws = s.draws := rfl
@[simp] theorem quiet_accEpoch (s : State) : (quiet s).accEpoch = s.accEpoch := rfl

@[simp] theorem clearAcc_cfg (s : State) : (clearAcc s).cfg = s.cfg := rfl
@[simp] theorem clearAcc_link (s : State) : (clearAcc s).link = s.link := rfl
@[simp] theorem clearAcc_wr (s : State) : (clearAcc s).wr = 0 := rfl
@[simp] theorem clearAcc_tAction (s : State) : (clearAcc s).tAction = s.tAction := rfl
@[simp] theorem clearAcc_tContact (s : State) : (clearAcc s).tContact = s.tContact := rfl
@[simp] theorem clearAcc_ackFlag (s : State) : (clearAcc s).ackFlag = s.ackFlag := rfl
@[simp] theorem clearAcc_nakFlag (s : State) : (clearAcc s).nakFlag = s.nakFlag := rfl
@[simp] theorem clearAcc_acc (s : State) : (clearAcc s).acc = s.acc := rfl
@[simp] theorem clearAcc_now (s : State) : (clearAcc s).now = s.now := rfl
@[simp] theorem clearAcc_rx (s : State) : (clearAcc s).rx = s.rx := rfl
@[simp] theorem clearAcc_tx (s : State) : (clearAcc s).tx = s.tx := rfl
@[simp] theorem clearAcc_out (s : State) : (clearAcc s).out = s.out := rfl
@[simp] theorem clearAcc_pending (s : State) : (clearAcc s).pending = s.pending := rfl
@[simp] theorem clearAcc_draws (s : State) : (clearAcc s).draws = s.draws := rfl
@[simp] theorem clearAcc_accEpoch (s : State) : (clearAcc s).accEpoch = s.accEpoch := rfl

@[simp] theorem takeRx_cfg (b : Byte) (s : State) : (takeRx b s).cfg = s.cfg := rfl
@[simp] theorem takeRx_link (b : Byte) (s : State) : (takeRx b s).link = s.link := rfl
@[simp] theorem takeRx_wr (b : Byte) (s : State) : (takeRx b s).wr = s.wr := rfl
@[simp] theorem takeRx_tAction (b : Byte) (s : State) : (takeRx b s).tAction = s.tAction := rfl
@[simp] theorem takeRx_tContact (b : Byte) (s : State) : (takeRx b s).tContact = s.tContact := rfl
@[simp] theorem takeRx_ackFlag (b : Byte) (s : State) : (takeRx b s).ackFlag = s.ackFlag := rfl
@[simp] theorem takeRx_nakFlag (b : Byte) (s : State) : (takeRx b s).nakFlag = s.nakFlag := rfl
@[simp] theorem takeRx_acc (b : Byte) (s : State) : (takeRx b s).acc = s.acc := rfl
@[simp] theorem takeRx_now (b : Byte) (s : State) : (takeRx b s).now = s.now := rfl
@[simp] theorem takeRx_rx (b : Byte) (s : State) : (takeRx b s).rx = s.rx ++ [b] := rfl
@[simp] theorem takeRx_tx (b : Byte) (s : State) : (takeRx b s).tx = s.tx := rfl
@[simp] theorem takeRx_out (b : Byte) (s : State) : (takeRx b s).out = s.out := rfl
@[simp] theorem takeRx_pending (b : Byte) (s : State) : (takeRx b s).pending = s.pending := rfl
@[simp] theorem takeRx_draws (b : Byte) (s : State) : (takeRx b s).draws = s.draws := rfl
@[simp] theorem takeRx_accEpoch (b : Byte) (s : State) : (takeRx b s).accEpoch = s.accEpoch := rfl

@[simp] theorem writeTx_cfg (bs : List Byte) (s : State) : (writeTx bs s).cfg = s.cfg := rfl
@[simp] theorem writeTx_link (bs : List Byte) (s : State) : (writeTx bs s).link = s.link := rfl
@[simp] theorem writeTx_wr (bs : List Byte) (s : State) : (writeTx bs s).wr = s.wr := rfl
@[simp] theorem writeTx_tAction (bs : List Byte) (s : State) : (writeTx bs s).tAction = s.tAction := rfl
@[simp] theorem writeTx_tContact (bs : List Byte) (s : State) : (writeTx bs s).tContact = s.tContact := rfl
@[simp] theorem writeTx_ackFlag (bs : List Byte) (s : State) : (writeTx bs s).ackFlag = s.ackFlag := rfl
@[simp] theorem writeTx_nakFlag (bs : List Byte) (s : State) : (writeTx bs s).nakFlag = s.nakFlag := rfl
@[simp] theorem writeTx_acc (bs : List Byte) (s : State) : (writeTx bs s).acc = s.acc := rfl
@[simp] theorem writeTx_now (bs : List Byte) (s : State) : (writeTx bs s).now = s.now := rfl
@[simp] theorem writeTx_rx (bs : List Byte) (s : State) : (writeTx bs s).rx = s.rx := rfl
@[simp] theorem writeTx_tx (bs : List Byte) (s : State) : (writeTx bs s).tx = s.tx ++ bs := rfl
@[simp] theorem writeTx_out (bs : List Byte) (s : State) : (writeTx bs s).out = { s.out with tx := bs } := rfl
@[simp] theorem writeTx_pending (bs : List Byte) (s : State) : (writeTx bs s).pending = s.pending := rfl
@[simp] theorem writeTx_draws (bs : List Byte) (s : State) : (writeTx bs s).draws = s.draws := rfl
@[simp] theorem writeTx_accEpoch (bs : List Byte) (s : State) : (writeTx bs s).accEpoch = s.accEpoch := rfl

@[simp] theorem stampAction_cfg (s : State) : (stampAction s).cfg = s.cfg := rfl
@[simp] theorem stampAction_link (s : State) : (stampAction s).link = s.link := rfl
@[simp] theorem stampAction_wr (s : State) : (stampAction s).wr = s.wr := rfl
@[simp] theorem stampAction_tAction (s : State) : (stampAction s).tAction = s.now := rfl
@[simp] theorem stampAction_tContact (s : State) : (stampAction s).tContact = s.tContact := rfl
@[simp] theorem stampAction_ackFlag (s : State) : (stampAction s).ackFlag = s.ackFlag := rfl
@[simp] theorem stampAction_nakFlag (s : State) : (stampAction s).nakFlag = s.nakFlag := rfl
@[simp] theorem stampAction_acc (s : State) : (stampAction s).acc = s.acc := rfl
@[simp] theorem stampAction_now (s : State) : (stampAction s).now = s.now := rfl
@[simp] theorem stampAction_rx (s : State) : (stampAction s).rx = s.rx := rfl
@[simp] theorem stampAction_tx (s : State) : (stampAction s).tx = s.tx := rfl
@[simp] theorem stampAction_out (s : State) : (stampAction s).out = s.out := rfl
@[simp] theorem stampAction_pending (s : State) : (stampAction s).pending = s.pending := rfl
@[simp] theorem stampAction_draws (s : State) : (stampAction s).draws = s.draws := rfl
@[simp] theorem stampAction_accEpoch (s : State) : (stampAction s).accEpoch = s.accEpoch := rfl

@[simp] theorem setLink_cfg (l : LinkState) (s : State) : (setLink l s).cfg = s.cfg := rfl
@[simp] theorem setLink_link (l : LinkState) (s : State) : (setLink l s).link = l := rfl
@[simp] theorem setLink_wr (l : LinkState) (s : State) : (setLink l s).wr = s.wr := rfl
@[simp] theorem setLink_tAction (l : LinkState) (s : State) : (setLink l s).tAction = s.tAction := rfl
@[simp] theorem setLink_tContact (l : LinkState) (s : State) : (setLink l s).tContact = s.tContact := rfl
@[simp] theorem setLink_ackFlag (l : LinkState) (s : State) : (setLink l s).ackFlag = s.ackFlag := rfl
@[simp] theorem setLink_nakFlag (l : LinkState) (s : State) : (setLink l s).nakFlag = s.nakFlag := rfl
@[simp] theorem setLink_acc (l : LinkState) (s : State) : (setLink l s).acc = s.acc := rfl
@[simp] theorem setLink_now (l : LinkState) (s : State) : (setLink l s).now = s.now := rfl
@[simp] theorem setLink_rx (l : LinkState) (s : State) : (setLink l s).rx = s.rx := rfl
@[simp] theorem setLink_tx (l : LinkState) (s : State) : (setLink l s).tx = s.tx := rfl
@[simp] theorem setLink_out (l : LinkState) (s : State) : (setLink l s).out = s.out := rfl
@[simp] theorem setLink_pending (l : LinkState) (s : State) : (setLink l s).pending = s.pending := rfl
@[simp] theorem setLink_draws (l : LinkState) (s : State) : (setLink l s).draws = s.draws := rfl
@[simp] theorem setLink_accEpoch (l : LinkState) (s : State) : (setLink l s).accEpoch = s.accEpoch := rfl

@[simp] theorem clearFlags_cfg (s : State) : (clearFlags s).cfg = s.cfg := rfl
@[simp] theorem clearFlags_link (s : State) : (clearFlags s).link = s.link := rfl
@[simp] theorem clearFlags_wr (s : State) : (clearFlags s).wr = s.wr := rfl
@[simp] theorem clearFlags_tAction (s : State) : (clearFlags s).tAction = s.tAction := rfl
@[simp] theorem clearFlags_tContact (s : State) : (clearFlags s).tContact = s.tContact := rfl
@[simp] theorem clearFlags_ackFlag (s : State) : (clearFlags s).ackFlag = false := rfl
@[simp] theorem clearFlags_nakFlag (s : State) : (clearFlags s).nakFlag = false := rfl
@[simp] theorem clearFlags_acc (s : State) : (clearFlags s).acc = s.acc := rfl
@[simp] theorem clearFlags_now (s : State) : (clearFlags s).now = s.now := rfl
@[simp] theorem clearFlags_rx (s : State) : (clearFlags s).rx = s.rx := rfl
@[simp] theorem clearFlags_tx (s : State) : (clearFlags s).tx = s.tx := rfl
@[simp] theorem clearFlags_out (s : State) : (clearFlags s).out = s.out := rfl
@[simp] theorem clearFlags_pending (s : State) : (clearFlags s).pending = s.pending := rfl
@[simp] theorem clearFlags_draws (s : State) : (clearFlags s).draws = s.draws := rfl
@[simp] theorem clearFlags_accEpoch (s : State) : (clearFlags s).accEpoch = s.accEpoch := rfl

@[simp] theorem raiseAck_cfg (s : State) : (raiseAck s).cfg = s.cfg := rfl
@[simp] theorem raiseAck_link (s : State) : (raiseAck s).link = s.link := rfl
@[simp] theorem raiseAck_wr (s : State) : (raiseAck s).wr = s.wr := rfl
@[simp] theorem raiseAck_tAction (s : State) : (raiseAck s).tAction = s.tAction := rfl
@[simp] theorem raiseAck_tContact (s : State) : (raiseAck s).tContact = some s.now := rfl
@[simp] theorem raiseAck_ackFlag (s : State) : (raiseAck s).ackFlag = true := rfl
@[simp] theorem raiseAck_nakFlag (s : State) : (raiseAck s).nakFlag = s.nakFlag := rfl
@[simp] theorem raiseAck_acc (s : State) : (raiseAck s).acc = s.acc := rfl
@[simp] theorem raiseAck_now (s : State) : (raiseAck s).now = s.now := rfl
@[simp] theorem raiseAck_rx (s : State) : (raiseAck s).rx = s.rx := rfl
@[simp] theorem raiseAck_tx (s : State) : (raiseAck s).tx = s.tx := rfl
@[simp] theorem raiseAck_out (s : State) : (raiseAck s).out = { s.out with ackEvt := true } := rfl
@[simp] theorem raiseAck_pending (s : State) : (raiseAck s).pending = s.pending := rfl
@[simp] theorem raiseAck_draws (s : State) : (raiseAck s).draws = s.draws := rfl
@[simp] theorem raiseAck_accEpoch (s : State) : (raiseAck s).accEpoch = s.accEpoch := rfl

@[simp] theorem raiseNak_cfg (s : State) : (raiseNak s).cfg = s.cfg := rfl
@[simp] theorem raiseNak_link (s : State) : (raiseNak s).link = s.link := rfl
@[simp] theorem raiseNak_wr (s : State) : (raiseNak s).wr = s.wr := rfl
@[simp] theorem raiseNak_tAction (s : State) : (raiseNak s).tAction = s.tAction := rfl
@[simp] theorem raiseNak_tContact (s : State) : (raiseNak s).tContact = s.tContact := rfl
@[simp] theorem raiseNak_ackFlag (s : State) : (raiseNak s).ackFlag = s.ackFlag := rfl
@[simp] theorem raiseNak_nakFlag (s : State) : (raiseNak s).nakFlag = true := rfl
@[simp] theorem raiseNak_acc (s : State) : (raiseNak s).acc = s.acc := rfl
@[simp] theorem raiseNak_now (s : State) : (raiseNak s).now = s.now := rfl
@[simp] theorem raiseNak_rx (s : State) : (raiseNak s).rx = s.rx := rfl
@[simp] theorem raiseNak_tx (s : State) : (raiseNak s).tx = s.tx := rfl
@[simp] theorem raiseNak_out (s : State) : (raiseNak s).out = { s.out with nakEvt := true } := rfl
@[simp] theorem raiseNak_pending (s : State) : (raiseNak s).pending = s.pending := rfl
@[simp] theorem raiseNak_draws (s : State) : (raiseNak s).draws = s.draws := rfl
@[simp] theorem raiseNak_accEpoch (s : State) : (raiseNak s).accEpoch = s.accEpoch := rfl

@[simp] theorem emitFrame_cfg (f : Frame) (s : State) : (emitFrame f s).cfg = s.cfg := rfl
@[simp] theorem emitFrame_link (f : Frame) (s : State) : (emitFrame f s).link = s.link := rfl
@[simp] theorem emitFrame_wr (f : Frame) (s : State) : (emitFrame f s).wr = s.wr := rfl
@[simp] theorem emitFrame_tAction (f : Frame) (s : State) : (emitFrame f s).tAction = s.tAction := rfl
@[simp] theorem emitFrame_tContact (f : Frame) (s : State) : (emitFrame f s).tContact = some s.now := rfl
@[simp] theorem emitFrame_ackFlag (f : Frame) (s : State) : (emitFrame f s).ackFlag = s.ackFlag := rfl
@[simp] theorem emitFrame_nakFlag (f : Frame) (s : State) : (emitFrame f s).nakFlag = s.nakFlag := rfl
@[simp] theorem emitFrame_acc (f : Frame) (s : State) : (emitFrame f s).acc = s.acc := rfl
@[simp] theorem emitFrame_now (f : Frame) (s : State) : (emitFrame f s).now = s.now := rfl
@[simp] theorem emitFrame_rx (f : Frame) (s : State) : (emitFrame f s).rx = s.rx := rfl
@[simp] theorem emitFrame_tx (f : Frame) (s : State) : (emitFrame f s).tx = s.tx := rfl
@[simp] theorem emitFrame_out (f : Frame) (s : State) : (emitFrame f s).out = { s.out with frameEvt := some f } := rfl
@[simp] theorem emitFrame_pending (f : Frame) (s : State) : (emitFrame f s).pending = s.pending := rfl
@[simp] theorem emitFrame_draws (f : Frame) (s : State) : (emitFrame f s).draws = s.draws := rfl
@[simp] theorem emitFrame_accEpoch (f : Frame) (s : State) : (emitFrame f s).accEpoch = s.accEpoch := rfl

@[simp] theorem present_cfg (st : Stimulus) (rest : List Stimulus) (s : State) : (present st rest s).cfg = s.cfg := rfl
@[simp] theorem present_link (st : Stimulus) (rest : List Stimulus) (s : State) : (present st rest s).link = s.link := rfl
@[simp] theorem present_wr (st : Stimulus) (rest : List Stimulus) (s : State) : (present st rest s).wr = s.wr := rfl
@[simp] theorem present_tAction (st : Stimulus) (rest : List Stimulus) (s : State) : (present st rest s).tAction = s.tAction := rfl
@[simp] theorem present_tContact (st : Stimulus) (rest : List Stimulus) (s : State) : (present st rest s).tContact = s.tContact := rfl
@[simp] theorem present_ackFlag (st : Stimulus) (rest : List Stimulus) (s : State) : (present st rest s).ackFlag = s.ackFlag := rfl
@[simp] theorem present_nakFlag (st : Stimulus) (rest : List Stimulus) (s : State) : (present st rest s).nakFlag = s.nakFlag := rfl
@[simp] theorem present_acc (st : Stimulus) (rest : List Stimulus) (s : State) : (present st rest s).acc = s.acc := rfl
@[simp] theorem present_now (st : Stimulus) (rest : List Stimulus) (s : State) : (present st rest s).now = s.cfg.time st.now := rfl
@[simp] theorem present_rx (st : Stimulus) (rest : List Stimulus) (s : State) : (present st rest s).rx = s.rx := rfl
@[simp] theorem present_tx (st : Stimulus) (rest : List Stimulus) (s : State) : (present st rest s).tx = s.tx := rfl
@[simp] theorem present_out (st : Stimulus) (rest : List Stimulus) (s : State) : (present st rest s).out = s.out := rfl
@[simp] theorem present_pending (st : Stimulus) (rest : List Stimulus) (s : State) : (present st rest s).pending = rest := rfl
@[simp] theorem present_draws (st : Stimulus) (rest : List Stimulus) (s : State) : (present st rest s).draws = s.draws + 1 := rfl
@[simp] theorem present_accEpoch (st : Stimulus) (rest : List Stimulus) (s : State) : (present st rest s).accEpoch = s.accEpoch := rfl

@[simp] theorem noOperation_cfg (s : State) : (noOperation s).cfg = s.cfg := rfl
@[simp] theorem noOperation_link (s : State) : (noOperation s).link = s.link := rfl
@[simp] theorem noOperation_wr (s : State) : (noOperation s).wr = s.wr := rfl
@[simp] theorem noOperation_tAction (s : State) : (noOperation s).tAction = s.tAction := rfl
@[simp] theorem noOperation_tContact (s : State) : (noOperation s).tContact = s.tContact := rfl
@[simp] theorem noOperation_ackFlag (s : State) : (noOperation s).ackFlag = s.ackFlag := rfl
@[simp] theorem noOperation_nakFlag (s : State) : (noOperation s).nakFlag = s.nakFlag := rfl
@[simp] theorem noOperation_acc (s : State) : (noOperation s).acc = s.acc := rfl
@[simp] theorem noOperation_now (s : State) : (noOperation s).now = s.now := rfl
@[simp] theorem noOperation_rx (s : State) : (noOperation s).rx = s.rx := rfl
@[simp] theorem noOperation_tx (s : State) : (noOperation s).tx = s.tx := rfl
@[simp] theorem noOperation_out (s : State) : (noOperation s).out = {} := rfl
@[simp] theorem noOperation_pending (s : State) : (noOperation s).pending = s.pending := rfl
@[simp] theorem noOperation_draws (s : State) : (noOperation s).draws = s.draws + 1 := rfl
@[simp] theorem noOperation_accEpoch (s : State) : (noOperation s).accEpoch = s.accEpoch := rfl

end Sys2Proof.Machine
end

