-- ==== Sys2Proof/Laws/Ops.lean ====
section
/-! SUPPORT. For each shared operation, once, everything it can do. -/

namespace Sys2Proof.Machine

theorem andThen_next {o : Result} {f : State → Result} {t : State} :
    andThen o f = .next t ↔ ∃ s, o = .next s ∧ f s = .next t := by
  cases o <;> simp [andThen]

@[simp] theorem andThen_of_next (s : State) (f : State → Result) : andThen (.next s) f = f s := rfl

/-- The state after an append. -/
def appended (b : Byte) (s : State) : State :=
  { s with acc := Memory.write s.acc s.wr b, wr := s.wr + 1 }

theorem append_of_lt {b : Byte} {s : State} (h : s.wr < s.cfg.cap) : append b s = .next (appended b s) := by
  simp [append, accWrite, h, appended]

theorem append_of_ge {b : Byte} {s : State} (h : s.cfg.cap ≤ s.wr) :
    append b s = .fault .accIndexOutOfRange := by
  simp [append, accWrite, Nat.not_lt.2 h, andThen]

theorem append_next {b : Byte} {s t : State} :
    append b s = .next t ↔ s.wr < s.cfg.cap ∧ t = appended b s := by
  by_cases h : s.wr < s.cfg.cap
  · simp [append_of_lt h, h, eq_comm]
  · simp [append_of_ge (Nat.not_lt.1 h), h]

@[simp] theorem appended_cfg (b : Byte) (s : State) : (appended b s).cfg = s.cfg := rfl
@[simp] theorem appended_link (b : Byte) (s : State) : (appended b s).link = s.link := rfl
@[simp] theorem appended_wr (b : Byte) (s : State) : (appended b s).wr = s.wr + 1 := rfl
@[simp] theorem appended_tAction (b : Byte) (s : State) : (appended b s).tAction = s.tAction := rfl
@[simp] theorem appended_tContact (b : Byte) (s : State) : (appended b s).tContact = s.tContact := rfl
@[simp] theorem appended_ackFlag (b : Byte) (s : State) : (appended b s).ackFlag = s.ackFlag := rfl
@[simp] theorem appended_nakFlag (b : Byte) (s : State) : (appended b s).nakFlag = s.nakFlag := rfl
@[simp] theorem appended_acc (b : Byte) (s : State) :
    (appended b s).acc = Memory.write s.acc s.wr b := rfl
@[simp] theorem appended_now (b : Byte) (s : State) : (appended b s).now = s.now := rfl
@[simp] theorem appended_rx (b : Byte) (s : State) : (appended b s).rx = s.rx := rfl
@[simp] theorem appended_tx (b : Byte) (s : State) : (appended b s).tx = s.tx := rfl
@[simp] theorem appended_out (b : Byte) (s : State) : (appended b s).out = s.out := rfl
@[simp] theorem appended_pending (b : Byte) (s : State) : (appended b s).pending = s.pending := rfl
@[simp] theorem appended_draws (b : Byte) (s : State) : (appended b s).draws = s.draws := rfl
@[simp] theorem appended_accEpoch (b : Byte) (s : State) : (appended b s).accEpoch = s.accEpoch := rfl

/-- A read depends on the cells and the epoch only. -/
theorem accRead_congr {s t : State} (hm : s.acc = t.acc) (he : s.accEpoch = t.accEpoch) (i : Nat) :
    accRead s i = accRead t i := by
  simp [accRead, hm, he]

theorem accRead_appended_same (b : Byte) (s : State) : accRead (appended b s) s.wr = b := by
  simp [accRead, Memory.read_write_same]

theorem accRead_appended_other {b : Byte} {s : State} {i : Nat} (h : i ≠ s.wr) :
    accRead (appended b s) i = accRead s i := by
  simp [accRead, Memory.read_write_other _ _ _ _ h]

/-- After an append the accumulator holds one byte more. -/
theorem heldBytes_appended (b : Byte) (s : State) : heldBytes (appended b s) = heldBytes s ++ [b] := by
  have h : (List.range s.wr).map (accRead (appended b s)) = (List.range s.wr).map (accRead s) :=
    List.map_congr_left fun i hi => accRead_appended_other (Nat.ne_of_lt (List.mem_range.1 hi))
  simp [heldBytes, List.range_succ, h, accRead_appended_same]

@[simp] theorem heldBytes_length (s : State) : (heldBytes s).length = s.wr := by simp [heldBytes]

theorem heldBytes_congr {s t : State} (hw : s.wr = t.wr) (h : ∀ i < s.wr, accRead s i = accRead t i) :
    heldBytes s = heldBytes t := by
  simp only [heldBytes, ← hw]
  exact List.map_congr_left fun i hi => h i (List.mem_range.1 hi)

/-- The candidate is what is held, less the bytes before its start. -/
theorem candidate_eq (start : Nat) (s : State) : candidate start s = (heldBytes s).drop start := by
  apply List.ext_getElem
  · simp [candidate]
  · intro i h1 h2
    simp [candidate, heldBytes]

theorem whenSelected_next {i : Instr} {f : State → Result} {s t : State} :
    whenSelected i f s = .next t ↔ selected i s = true ∧ f (quiet s) = .next t := by
  unfold whenSelected
  split <;> simp_all

theorem whenSelected_of {i : Instr} {f : State → Result} {s : State} (h : selected i s = true) :
    whenSelected i f s = f (quiet s) := by
  simp [whenSelected, h]

theorem whenSelected_of_not {i : Instr} {f : State → Result} {s : State} (h : selected i s = false) :
    whenSelected i f s = .refused .notSelected := by
  simp [whenSelected, h]

/-- The state after a transmission. -/
def transmitted (p : List Byte) (s : State) : State :=
  clearFlags (stampAction (writeTx (encodeFrame p) s))

theorem transmit_of_le {p : List Byte} {s : State} (h : p.length ≤ s.cfg.maxPayload) :
    transmit p s = .next (transmitted p s) := by
  simp [transmit, h, transmitted]

theorem transmit_next {p : List Byte} {s t : State} :
    transmit p s = .next t ↔ p.length ≤ s.cfg.maxPayload ∧ t = transmitted p s := by
  by_cases h : p.length ≤ s.cfg.maxPayload
  · simp [transmit_of_le h, h, eq_comm]
  · simp [transmit, h]

/-- What the candidate does: a frame event and the contact time where DEC accepts, and the accumulator reset. -/
theorem takeCandidate_eq (start : Nat) (s : State) :
    takeCandidate start s = match decodeFrame s.cfg.strictChecksum ((heldBytes s).drop start) with
      | .accepted f => clearAcc (emitFrame f s)
      | .rejected => clearAcc s := by
  rw [takeCandidate, candidate_eq]
  split <;> simp_all [takeError]

/-- An operation touches the parameters, the queue, `now` or the draw in no arm of the demultiplexer's end marker. -/
theorem endMarker_cases (s : State) :
    (AckPrefixed s ∧ endMarker s = takeCandidate 1 (raiseAck s)) ∨
    (¬ AckPrefixed s ∧ accRead s 0 = STX ∧ endMarker s = takeCandidate 0 s) ∨
    (¬ AckPrefixed s ∧ accRead s 0 ≠ STX ∧ endMarker s = clearAcc s) := by
  unfold endMarker
  split
  · next h => exact .inl ⟨h, rfl⟩
  · next h =>
    split
    · next h2 => exact .inr (.inl ⟨h, h2, rfl⟩)
    · next h2 => exact .inr (.inr ⟨h, h2, rfl⟩)

/-- What the end marker leaves in every field. -/
theorem endMarker_frame (s : State) :
    (endMarker s).cfg = s.cfg ∧ (endMarker s).link = s.link ∧ (endMarker s).tAction = s.tAction ∧
    (endMarker s).tx = s.tx ∧ (endMarker s).now = s.now ∧ (endMarker s).pending = s.pending ∧
    (endMarker s).draws = s.draws ∧ (endMarker s).accEpoch = s.accEpoch ∧ (endMarker s).acc = s.acc ∧
    (endMarker s).wr = 0 ∧ (endMarker s).nakFlag = s.nakFlag ∧ (endMarker s).rx = s.rx ∧
    (endMarker s).out
      = { s.out with ackEvt := (endMarker s).out.ackEvt, frameEvt := (endMarker s).out.frameEvt } ∧
    (s.out.ackEvt = false → (endMarker s).ackFlag = (s.ackFlag || (endMarker s).out.ackEvt)) ∧
    (s.out.ackEvt = false → s.out.frameEvt = none → (endMarker s).tContact =
      if (endMarker s).out.ackEvt = true ∨ (endMarker s).out.frameEvt.isSome = true then some s.now
      else s.tContact) := by
  rcases endMarker_cases s with ⟨-, he⟩ | ⟨-, -, he⟩ | ⟨-, -, he⟩ <;> rw [he] <;> try rw [takeCandidate_eq]
  · split <;> simp
  · split <;> simp_all
  · simp_all

end Sys2Proof.Machine
end

