-- ==== Sys2Proof/Laws/Exec.lean ====
section
/-! SUPPORT. One lemma per operation: when it answers a next state, and which. -/

namespace Sys2Proof.Machine

variable {s t : State}

theorem execEnc_next {p : List Byte} : execEnc p s = .next t ↔ p.length ≤ s.cfg.maxPayload ∧
    t = { s with out := { encResult := some (encodeFrame p) } } := by
  rw [execEnc, whenSelected_next]
  by_cases h : p.length ≤ s.cfg.maxPayload <;> simp [selected, Instr.selectedAt, h, eq_comm, quiet]

theorem execDec_next {r : List Byte} : execDec r s = .next t ↔
    t = { s with out := { decResult := some (decodeFrame s.cfg.strictChecksum r) } } := by
  rw [execDec, whenSelected_next]
  simp [selected, Instr.selectedAt, eq_comm, quiet]

theorem execRxbOvf_next {b : Byte} : execRxbOvf b s = .next t ↔
    s.wr = s.cfg.cap ∧ t = clearAcc (takeRx b (quiet s)) := by
  rw [execRxbOvf, whenSelected_next]
  simp [selected, Instr.selectedAt, eq_comm, takeError]

theorem execRxbData_next {b : Byte} : execRxbData b s = .next t ↔
    selected (.rxbData b) s = true ∧ s.wr < s.cfg.cap ∧ t = appended b (takeRx b (quiet s)) := by
  rw [execRxbData, whenSelected_next, append_next]
  simp

theorem execRxbEtx_next : execRxbEtx s = .next t ↔
    s.wr < s.cfg.cap ∧ t = endMarker (appended ETX (takeRx ETX (quiet s))) := by
  rw [execRxbEtx, whenSelected_next, andThen_next]
  simp only [append_next, selected, Instr.selectedAt]
  constructor
  · rintro ⟨-, u, ⟨h, rfl⟩, h2⟩
    exact ⟨h, by injection h2 with h2; exact h2.symm⟩
  · rintro ⟨h, rfl⟩
    exact ⟨by simp [Nat.ne_of_lt h], _, ⟨h, rfl⟩, rfl⟩

theorem execRxbAck_next : execRxbAck s = .next t ↔
    (s.wr = 0 ∧ 0 < s.cfg.cap ∧ s.cfg.soleByteDeferred = false) ∧
      t = clearAcc (raiseAck (appended ACK (takeRx ACK (quiet s)))) := by
  rw [execRxbAck, whenSelected_next, andThen_next]
  simp only [append_next, selected, Instr.selectedAt]
  constructor
  · rintro ⟨h0, u, ⟨h, rfl⟩, h2⟩
    simp only [Bool.and_true, decide_eq_true_eq, SoleOnArrival] at h0
    refine ⟨⟨h0.2.1, by simpa [h0.2.1] using h, h0.2.2.2⟩, by injection h2 with h2; exact h2.symm⟩
  · rintro ⟨⟨h0, hc, hd⟩, rfl⟩
    exact ⟨by simp [h0, hd, Nat.ne_of_lt hc], _, ⟨by simpa [h0] using hc, rfl⟩, rfl⟩

theorem execRxbNak_next : execRxbNak s = .next t ↔
    (s.wr = 0 ∧ 0 < s.cfg.cap ∧ s.cfg.soleByteDeferred = false) ∧
      t = clearAcc (raiseNak (appended NAK (takeRx NAK (quiet s)))) := by
  rw [execRxbNak, whenSelected_next, andThen_next]
  simp only [append_next, selected, Instr.selectedAt, takeError]
  constructor
  · rintro ⟨h0, u, ⟨h, rfl⟩, h2⟩
    simp only [Bool.and_true, decide_eq_true_eq, SoleOnArrival] at h0
    refine ⟨⟨h0.2.1, by simpa [h0.2.1] using h, h0.2.2.2⟩, by injection h2 with h2; exact h2.symm⟩
  · rintro ⟨⟨h0, hc, hd⟩, rfl⟩
    exact ⟨by simp [h0, hd, Nat.ne_of_lt hc], _, ⟨by simpa [h0] using hc, rfl⟩, rfl⟩

/-- The state RXI leaves. -/
def idleChecked (s : State) : State :=
  if s.cfg.soleByteDeferred = true ∧ s.wr = 1 then
    if accRead s 0 = ACK then clearAcc (raiseAck s)
    else if accRead s 0 = NAK then clearAcc (raiseNak s)
    else s
  else s

theorem execRxi_next : execRxi s = .next t ↔ t = idleChecked (quiet s) := by
  rw [execRxi, whenSelected_next]
  simp only [selected, Instr.selectedAt, takeError, idleChecked]
  split_ifs <;> simp [eq_comm]

theorem execLsmSend_next {k : Nat} : execLsmSend k s = .next t ↔
    s.link = .send k ∧ ∃ p, s.cfg.initCmd[k]? = some p ∧ p.length ≤ s.cfg.maxPayload ∧
      t = setLink (.wait k) (transmitted p (quiet s)) := by
  rw [execLsmSend, whenSelected_next]
  simp only [initCommand, quiet_cfg, selected, Instr.selectedAt, Bool.true_and, decide_eq_true_eq]
  cases h : s.cfg.initCmd[k]? with
  | none => simp
  | some p =>
    simp only [andThen_next, transmit_next, quiet_cfg, Option.some.injEq, exists_eq_left']
    refine and_congr_right fun _ => ⟨?_, ?_⟩
    · rintro ⟨u, ⟨hp, rfl⟩, h2⟩
      exact ⟨hp, by injection h2 with h2; exact h2.symm⟩
    · rintro ⟨hp, rfl⟩
      exact ⟨_, ⟨hp, rfl⟩, rfl⟩

theorem execLsmWait_next {k : Nat} : execLsmWait k s = .next t ↔
    s.link = .wait k ∧ k < s.cfg.nSteps ∧
      t = if Advances k s then setLink (nextStep k s) (quiet s)
        else if TimedOut s then setLink (.send k) (quiet s) else quiet s := by
  rw [execLsmWait, whenSelected_next]
  simp only [selected, Instr.selectedAt, Bool.true_and, decide_eq_true_eq, quiet_cfg]
  by_cases hl : s.link = .wait k
  · by_cases hk : k < s.cfg.nSteps
    · have e1 : Advances k (quiet s) = Advances k s := rfl
      have e2 : TimedOut (quiet s) = TimedOut s := rfl
      have e3 : nextStep k (quiet s) = nextStep k s := rfl
      simp only [hl, hk, Nat.not_le.2 hk, if_false, takeError, quiet_link, e1, e2, e3, true_and]
      split_ifs <;> simp [eq_comm]
    · simp [hl, hk, Nat.not_lt.1 hk]
  · simp [hl]

theorem execLsmIdle_next : execLsmIdle s = .next t ↔ s.link = .idle ∧ t = quiet s := by
  rw [execLsmIdle, whenSelected_next]
  simp [selected, Instr.selectedAt, eq_comm]

theorem execHtx_next {p : List Byte} : execHtx p s = .next t ↔ p.length ≤ s.cfg.maxPayload ∧
    t = if s.link = .idle then transmitted p (quiet s) else takeError .hostRefused (quiet s) := by
  rw [execHtx, whenSelected_next]
  simp only [selected, Instr.selectedAt, Bool.true_and, true_and, quiet_cfg, quiet_link]
  by_cases h : p.length ≤ s.cfg.maxPayload
  · by_cases hl : s.link = .idle
    · simp [h, hl, transmit_next]
    · simp [h, hl, eq_comm]
  · simp [h]

theorem execRst_next : execRst s = .next t ↔
    t = { s with
      link := .send 0
      wr := 0
      ackFlag := false
      nakFlag := false
      tContact := none
      tAction := s.cfg.time (Config.freeTime s.draws)
      acc := []
      accEpoch := s.draws
      out := {} } := by
  rw [execRst, whenSelected_next]
  simp [selected, Instr.selectedAt, eq_comm, quiet]

end Sys2Proof.Machine
end

