-- ==== Sys2Proof/Laws/PerInstr.lean ====
section
/-! SUPPORT. Statements made once per operation. -/

open Sys2Proof Sys2Proof.Machine

/-- In a state that selects an operation, the word its strobe puts on the port is the operation's encoding. -/
def Sys2Proof.Laws.StrobeCarriesWord.Statement (i : Instr) : Prop :=
  ∀ s : State, selected i s = true → portWord s (strobeOf i) = some (encode s.cfg i)

theorem Sys2Proof.Laws.StrobeCarriesWord.enc (p : List Byte) :
    Sys2Proof.Laws.StrobeCarriesWord.Statement (.enc p) :=
  fun _ _ => rfl

theorem Sys2Proof.Laws.StrobeCarriesWord.dec (r : List Byte) :
    Sys2Proof.Laws.StrobeCarriesWord.Statement (.dec r) :=
  fun _ _ => rfl

theorem Sys2Proof.Laws.StrobeCarriesWord.rxbOvf (b : Byte) :
    Sys2Proof.Laws.StrobeCarriesWord.Statement (.rxbOvf b) :=
  fun _ _ => rfl

theorem Sys2Proof.Laws.StrobeCarriesWord.rxbEtx :
    Sys2Proof.Laws.StrobeCarriesWord.Statement .rxbEtx :=
  fun _ _ => rfl

theorem Sys2Proof.Laws.StrobeCarriesWord.rxbAck :
    Sys2Proof.Laws.StrobeCarriesWord.Statement .rxbAck :=
  fun _ _ => rfl

theorem Sys2Proof.Laws.StrobeCarriesWord.rxbNak :
    Sys2Proof.Laws.StrobeCarriesWord.Statement .rxbNak :=
  fun _ _ => rfl

theorem Sys2Proof.Laws.StrobeCarriesWord.rxbData (b : Byte) :
    Sys2Proof.Laws.StrobeCarriesWord.Statement (.rxbData b) :=
  fun _ _ => rfl

theorem Sys2Proof.Laws.StrobeCarriesWord.rxi :
    Sys2Proof.Laws.StrobeCarriesWord.Statement .rxi :=
  fun _ _ => rfl

theorem Sys2Proof.Laws.StrobeCarriesWord.lsmSend (k : Nat) :
    Sys2Proof.Laws.StrobeCarriesWord.Statement (.lsmSend k) := by
  intro s h
  have hl : s.link = .send k := by simpa [selected, Instr.selectedAt] using h
  simp [portWord, strobeOf, encode, hl, LinkState.code]

theorem Sys2Proof.Laws.StrobeCarriesWord.lsmWait (k : Nat) :
    Sys2Proof.Laws.StrobeCarriesWord.Statement (.lsmWait k) := by
  intro s h
  have hl : s.link = .wait k := by simpa [selected, Instr.selectedAt] using h
  simp [portWord, strobeOf, encode, hl, LinkState.code]

theorem Sys2Proof.Laws.StrobeCarriesWord.lsmIdle :
    Sys2Proof.Laws.StrobeCarriesWord.Statement .lsmIdle := by
  intro s h
  have hl : s.link = .idle := by simpa [selected, Instr.selectedAt] using h
  simp [portWord, strobeOf, encode, hl, LinkState.code]

theorem Sys2Proof.Laws.StrobeCarriesWord.htx (p : List Byte) :
    Sys2Proof.Laws.StrobeCarriesWord.Statement (.htx p) :=
  fun _ _ => rfl

theorem Sys2Proof.Laws.StrobeCarriesWord.rst :
    Sys2Proof.Laws.StrobeCarriesWord.Statement .rst :=
  fun _ _ => rfl
end

