-- ==== Sys2Proof/Laws/Step.lean ====
section
/-! SUPPORT. What a step can do, once; when an operation completes; what no operation writes. -/

namespace Sys2Proof.Machine

theorem Config.payload_le {c : Config} (h : c.wf = true) {k : Nat} {p : List Byte}
    (hp : c.initCmd[k]? = some p) : p.length ≤ c.maxPayload := by
  simp only [Config.wf, Bool.and_eq_true, List.all_eq_true, decide_eq_true_eq] at h
  exact h.1.2 p (List.mem_of_getElem? hp)

/-- The arm of LSM that a link state selects. -/
def stepArm : LinkState → Instr
  | .send k => .lsmSend k
  | .wait k => .lsmWait k
  | .idle => .lsmIdle

theorem decode_link {s : State} (h : s.link.inRange s.cfg = true) :
    decode s.cfg s.wr (.lsmStep (s.link.code s.cfg)) = .ok (stepArm s.link) := by
  show decodeLState _ _ = _
  unfold decodeLState
  cases hl : s.link with
  | send k =>
    simp only [hl, LinkState.inRange, decide_eq_true_eq] at h
    rw [LinkState.code, if_neg (by omega), if_neg (by omega), if_pos (by omega)]
    simp [stepArm]
  | wait k =>
    simp only [hl, LinkState.inRange, decide_eq_true_eq] at h
    rw [LinkState.code, if_neg (by omega), if_neg (by omega), if_neg (by omega)]
    simp [stepArm]
    omega
  | idle => simp [LinkState.code, stepArm]

theorem stepArm_selected {s : State} (h : s.link.inRange s.cfg = true) :
    selected (stepArm s.link) s = true ∧ (stepArm s.link).wf s.cfg = true := by
  cases hl : s.link <;> simp_all [stepArm, selected, Instr.selectedAt, Instr.wf, LinkState.inRange]

/-- The classification of a byte gives an arm that the state selects. -/
theorem decodeRxByte_selected (b : Byte) (s : State) :
    selected (decodeRxByte s.cfg s.wr b) s = true ∧ (decodeRxByte s.cfg s.wr b).wf s.cfg = true := by
  unfold decodeRxByte
  split_ifs with h1 h2 h3 h4
  · simp [selected, Instr.selectedAt, Instr.wf, h1]
  · simp [selected, Instr.selectedAt, Instr.wf, h1]
  · obtain ⟨h3a, -, h3b⟩ := h3
    simp only [selected, Instr.selectedAt, Instr.wf, Bool.and_true, decide_eq_true_eq, and_true]
    exact ⟨h1, h3a, rfl, h3b⟩
  · obtain ⟨h4a, -, h4b⟩ := h4
    simp only [selected, Instr.selectedAt, Instr.wf, Bool.and_true, decide_eq_true_eq, and_true]
    exact ⟨h1, h4a, rfl, h4b⟩
  · simp only [selected, Instr.selectedAt, Instr.wf, Bool.and_true, decide_eq_true_eq]
    exact ⟨⟨h1, h2, h3, h4⟩, h2⟩

theorem step_nil {s : State} (hw : s.cfg.wf = true) (hp : s.pending = []) : step s = .next (noOperation s) := by
  simp [step, hw, hp]

theorem step_cons {s : State} {st : Stimulus} {rest : List Stimulus} (hw : s.cfg.wf = true)
    (hp : s.pending = st :: rest) : step s = perform st.op (present st rest s) := by
  simp [step, hw, hp]

theorem step_bad {s : State} (hw : s.cfg.wf = false) : step s = .refused .badParameters := by
  simp [step, hw]

/-- A strobe: nothing, a stop, or one operation that the state selects and whose operands are in the domain. -/
theorem perform_cases (op : PortOp) (s : State) :
    (op = .observe ∧ perform op s = .next (quiet s)) ∨
    (op = .lsm ∧ s.link.inRange s.cfg = false ∧ perform op s = .fault .linkStateOutOfRange) ∨
    (∃ p, (op = .enc p ∨ op = .htx p) ∧ s.cfg.maxPayload < p.length ∧
      perform op s = .refused .payloadTooLong) ∨
    (∃ i, perform op s = exec i s ∧ selected i s = true ∧ i.wf s.cfg = true) := by
  cases op with
  | observe => exact .inl ⟨rfl, rfl⟩
  | rst => exact .inr (.inr (.inr ⟨.rst, rfl, rfl, rfl⟩))
  | rxi => exact .inr (.inr (.inr ⟨.rxi, rfl, rfl, rfl⟩))
  | dec r => exact .inr (.inr (.inr ⟨.dec r, rfl, rfl, rfl⟩))
  | rx b =>
    obtain ⟨h1, h2⟩ := decodeRxByte_selected b s
    exact .inr (.inr (.inr ⟨_, by simp [perform, portWord, decode], h1, h2⟩))
  | lsm =>
    by_cases hl : s.link.inRange s.cfg = true
    · obtain ⟨h1, h2⟩ := stepArm_selected hl
      exact .inr (.inr (.inr ⟨_, by simp [perform, portWord, hl, decode_link hl], h1, h2⟩))
    · simp only [Bool.not_eq_true] at hl
      exact .inr (.inl ⟨rfl, hl, by simp [perform, portWord, hl]⟩)
  | enc p =>
    by_cases h : p.length ≤ s.cfg.maxPayload
    · exact .inr (.inr (.inr ⟨.enc p, by simp [perform, portWord, decode, decodePayload, h], rfl,
        by simp [Instr.wf, h]⟩))
    · exact .inr (.inr (.inl ⟨p, .inl rfl, by omega,
        by simp [perform, portWord, decode, decodePayload, h, reject]⟩))
  | htx p =>
    by_cases h : p.length ≤ s.cfg.maxPayload
    · exact .inr (.inr (.inr ⟨.htx p, by simp [perform, portWord, decode, decodePayload, h], rfl,
        by simp [Instr.wf, h]⟩))
    · exact .inr (.inr (.inl ⟨p, .inr rfl, by omega,
        by simp [perform, portWord, decode, decodePayload, h, reject]⟩))

/-- Every way in which a step answers a next state. -/
theorem step_next_cases {s t : State} (h : step s = .next t) :
    s.cfg.wf = true ∧
    ((s.pending = [] ∧ t = noOperation s) ∨
      ∃ st rest, s.pending = st :: rest ∧
        ((st.op = .observe ∧ t = quiet (present st rest s)) ∨
          ∃ i, exec i (present st rest s) = .next t ∧ perform st.op (present st rest s)
            = exec i (present st rest s) ∧ i.wf s.cfg = true)) := by
  by_cases hw : s.cfg.wf = true
  · refine ⟨hw, ?_⟩
    cases hp : s.pending with
    | nil =>
      rw [step_nil hw hp] at h
      injection h with h
      exact .inl ⟨rfl, h.symm⟩
    | cons st rest =>
      rw [step_cons hw hp] at h
      refine .inr ⟨st, rest, rfl, ?_⟩
      rcases perform_cases st.op (present st rest s) with ⟨h1, h2⟩ | ⟨-, -, h2⟩ | ⟨p, -, -, h2⟩ | ⟨i, h2, -, h3⟩
      · rw [h2] at h
        injection h with h
        exact .inl ⟨h1, h.symm⟩
      · rw [h2] at h
        cases h
      · rw [h2] at h
        cases h
      · exact .inr ⟨i, h2 ▸ h, h2, h3⟩
  · simp [step, hw] at h

/-- An arm that the state selects, with operands in its domain, answers a next state. -/
theorem exec_completes {i : Instr} {s : State} (hw : s.cfg.wf = true) (hc : s.wr ≤ s.cfg.cap)
    (hs : selected i s = true) (hi : i.wf s.cfg = true) : ∃ t, exec i s = .next t := by
  cases i with
  | enc p => exact ⟨_, execEnc_next.2 ⟨by simpa [Instr.wf] using hi, rfl⟩⟩
  | dec r => exact ⟨_, execDec_next.2 rfl⟩
  | rxbOvf b => exact ⟨_, execRxbOvf_next.2 ⟨by simpa [selected, Instr.selectedAt] using hs, rfl⟩⟩
  | rxbEtx =>
    have : s.wr ≠ s.cfg.cap := by simpa [selected, Instr.selectedAt] using hs
    exact ⟨_, execRxbEtx_next.2 ⟨by omega, rfl⟩⟩
  | rxbAck =>
    simp [selected, Instr.selectedAt] at hs
    exact ⟨_, execRxbAck_next.2 ⟨⟨hs.2.1, by omega, hs.2.2⟩, rfl⟩⟩
  | rxbNak =>
    simp [selected, Instr.selectedAt] at hs
    exact ⟨_, execRxbNak_next.2 ⟨⟨hs.2.1, by omega, hs.2.2⟩, rfl⟩⟩
  | rxbData b =>
    have h2 := hs
    simp only [selected, Instr.selectedAt, Bool.and_true, decide_eq_true_eq] at h2
    exact ⟨_, execRxbData_next.2 ⟨hs, by omega, rfl⟩⟩
  | rxi => exact ⟨_, execRxi_next.2 rfl⟩
  | lsmSend k =>
    simp [selected, Instr.selectedAt] at hs
    simp [Instr.wf] at hi
    obtain ⟨p, hp⟩ : ∃ p, s.cfg.initCmd[k]? = some p := ⟨_, List.getElem?_eq_getElem hi⟩
    exact ⟨_, execLsmSend_next.2 ⟨hs, p, hp, Config.payload_le hw hp, rfl⟩⟩
  | lsmWait k =>
    simp [selected, Instr.selectedAt] at hs
    simp [Instr.wf] at hi
    exact ⟨_, execLsmWait_next.2 ⟨hs, hi, rfl⟩⟩
  | lsmIdle =>
    simp [selected, Instr.selectedAt] at hs
    exact ⟨_, execLsmIdle_next.2 ⟨hs, rfl⟩⟩
  | htx p => exact ⟨_, execHtx_next.2 ⟨by simpa [Instr.wf] using hi, rfl⟩⟩
  | rst => exact ⟨_, execRst_next.2 rfl⟩

/-- No operation writes the parameters, the `now` port, the queue or the draw. -/
theorem exec_keeps {i : Instr} {s t : State} (he : exec i s = .next t) :
    t.cfg = s.cfg ∧ t.now = s.now ∧ t.pending = s.pending ∧ t.draws = s.draws := by
  cases i with
  | enc p => obtain ⟨-, rfl⟩ := execEnc_next.1 he; exact ⟨rfl, rfl, rfl, rfl⟩
  | dec r => obtain rfl := execDec_next.1 he; exact ⟨rfl, rfl, rfl, rfl⟩
  | rxbOvf b => obtain ⟨-, rfl⟩ := execRxbOvf_next.1 he; exact ⟨rfl, rfl, rfl, rfl⟩
  | rxbEtx =>
    obtain ⟨-, rfl⟩ := execRxbEtx_next.1 he
    obtain ⟨h1, -, -, -, h5, h6, h7, -⟩ := endMarker_frame (appended ETX (takeRx ETX (quiet s)))
    exact ⟨h1, h5, h6, h7⟩
  | rxbAck => obtain ⟨-, rfl⟩ := execRxbAck_next.1 he; exact ⟨rfl, rfl, rfl, rfl⟩
  | rxbNak => obtain ⟨-, rfl⟩ := execRxbNak_next.1 he; exact ⟨rfl, rfl, rfl, rfl⟩
  | rxbData b => obtain ⟨-, -, rfl⟩ := execRxbData_next.1 he; exact ⟨rfl, rfl, rfl, rfl⟩
  | rxi => obtain rfl := execRxi_next.1 he; unfold idleChecked; split_ifs <;> exact ⟨rfl, rfl, rfl, rfl⟩
  | lsmSend k => obtain ⟨-, p, -, -, rfl⟩ := execLsmSend_next.1 he; exact ⟨rfl, rfl, rfl, rfl⟩
  | lsmWait k => obtain ⟨-, -, rfl⟩ := execLsmWait_next.1 he; split_ifs <;> exact ⟨rfl, rfl, rfl, rfl⟩
  | lsmIdle => obtain ⟨-, rfl⟩ := execLsmIdle_next.1 he; exact ⟨rfl, rfl, rfl, rfl⟩
  | htx p => obtain ⟨-, rfl⟩ := execHtx_next.1 he; split_ifs <;> exact ⟨rfl, rfl, rfl, rfl⟩
  | rst => obtain rfl := execRst_next.1 he; exact ⟨rfl, rfl, rfl, rfl⟩

end Sys2Proof.Machine
end

