-- ==== Sys2Proof/Tests/Slice0.lean ====
section
/-! SUPPORT. The model's own tests, each of one step or one decoding, with the results that spec/95_test_vectors.md
gives; and for every statement with hypotheses a witness that meets them. -/

namespace Sys2Proof.Tests

open Sys2Proof Sys2Proof.Machine

/-! ## Helpers -/

/-- Configuration TC with the other reading of the sole byte. -/
def tcDeferred : Config := { Config.tc with soleByteDeferred := true }
/-- Configuration TC with the strict checksum test. -/
def tcStrict : Config := { Config.tc with strictChecksum := true }

/-- The accumulator's cells for bytes held from index `i`. -/
def cells : Nat → List Byte → Memory
  | _, [] => []
  | i, b :: bs => (i, b) :: cells (i + 1) bs

/-- A state that holds `bs`, in link state `l`, at time 100. -/
def holding (c : Config) (l : LinkState) (bs : List Byte) : State :=
  { State.resetWith c with link := l, acc := cells 0 bs, wr := bs.length, now := 100 }

/-- A state in link state `l` at time `now`, last action at time 0. -/
def waiting (l : LinkState) (now : Nat) (ack nak : Bool) : State :=
  { State.reset with link := l, now := now, ackFlag := ack, nakFlag := nak }

/-- What one reads in the next state, if there is one. -/
def look {α : Type} (f : State → α) : Result → Option α
  | .next s => some (f s)
  | .fault _ => none
  | .refused _ => none

/-- 61 and 62 bytes of 0x30: at and beyond `MAX_PAYLOAD` for `CAP = 64`. -/
def p61 : List Byte := List.replicate 61 0x30#8
def p62 : List Byte := List.replicate 62 0x30#8

/-! ## WellFormed: an ill-formed term for each check -/

theorem test_wf_enc_too_long : (Instr.enc p62).wf .tc = false := by decide
theorem test_wf_htx_too_long : (Instr.htx p62).wf .tc = false := by decide
theorem test_wf_longest_payload : (Instr.enc p61).wf .tc = true ∧ (Instr.htx p61).wf .tc = true := by decide
theorem test_wf_data_not_end_marker : (Instr.rxbData 0x03#8).wf .tc = false := by decide
theorem test_wf_send_index : (Instr.lsmSend 3).wf .tc = false ∧ (Instr.lsmSend 2).wf .tc = true := by decide
theorem test_wf_wait_index : (Instr.lsmWait 3).wf .tc = false ∧ (Instr.lsmWait 2).wf .tc = true := by decide
theorem test_wf_capacity : Config.wf { cap := 4, initCmd := [[]], nakOkStep := 0 } = false := by decide
theorem test_wf_no_steps : Config.wf { initCmd := [], nakOkStep := 0 } = false := by decide
theorem test_wf_nak_step : Config.wf { Config.tc with nakOkStep := 3 } = false := by decide
theorem test_wf_command_length : Config.wf { initCmd := [p62], nakOkStep := 0 } = false := by decide
theorem test_wf_command_distinct :
    Config.wf { initCmd := [[0x46#8], [0x41#8], [0x46#8]], nakOkStep := 0 } = false := by decide
theorem test_wf_tc : Config.wf .tc = true ∧ Config.wf { cap := 5, initCmd := [[]], nakOkStep := 0 } = true := by decide

/-! ## Decoding: words written out from spec/30_encoding.md R42, R45 and R46 -/

/-- The frame `<02 46 38 7E 03>` (V-ENC-2), its first byte in the lowest bits. -/
theorem test_decode_enc_word :
    decodeTableWord 40 0b00000011_01111110_00111000_01000110_00000010 = some (.enc [0x46#8, 0x38#8]) := by decide
/-- The same with checksum 0x00: no frame that ENC makes. -/
theorem test_decode_dec_word :
    decodeTableWord 40 0b00000011_00000000_00111000_01000110_00000010
      = some (.dec [0x02#8, 0x46#8, 0x38#8, 0x00#8, 0x03#8]) := by decide
theorem test_decode_enc_port : decode .tc 0 (.encCall []) = .ok (.enc []) := by decide
theorem test_decode_dec_port : decode .tc 0 (.decCall [0x02#8]) = .ok (.dec [0x02#8]) := by decide
theorem test_decode_etx : decode .tc 63 (.rxByte 0b00000011#8) = .ok .rxbEtx := by decide
theorem test_decode_ack : decode .tc 0 (.rxByte 0b00000110#8) = .ok .rxbAck := by decide
theorem test_decode_nak : decode .tc 0 (.rxByte 0b00010101#8) = .ok .rxbNak := by decide
/-- V-DATA-3: an acknowledgement byte at cursor 1 is data; deferred, at cursor 0 too (V-DEF-2). -/
theorem test_decode_ack_as_data :
    decode .tc 1 (.rxByte 0b00000110#8) = .ok (.rxbData 0x06#8) ∧
    decode tcDeferred 0 (.rxByte 0b00000110#8) = .ok (.rxbData 0x06#8) := by decide
theorem test_decode_data : decode .tc 0 (.rxByte 0b00000010#8) = .ok (.rxbData 0x02#8) := by decide
/-- V-OVF-1, V-OVF-2: at cursor `CAP` no byte is examined. -/
theorem test_decode_overflow :
    decode .tc 64 (.rxByte 0b00000011#8) = .ok (.rxbOvf 0x03#8) ∧
    decode .tc 64 (.rxByte 0b00000110#8) = .ok (.rxbOvf 0x06#8) := by decide
theorem test_decode_rxi : decode .tc 0 .rxIdle = .ok .rxi := by decide
theorem test_decode_send : decode .tc 0 (.lsmStep 0b00000100) = .ok (.lsmSend 2) := by decide
theorem test_decode_wait : decode .tc 0 (.lsmStep 0b00000101) = .ok (.lsmWait 2) := by decide
theorem test_decode_idle : decode .tc 0 (.lsmStep 0b00000110) = .ok .lsmIdle := by decide
theorem test_decode_code_above_idle :
    decode .tc 0 (.lsmStep 0b00000111) = .rejected .stateCodeOutOfRange := by decide
theorem test_decode_htx : decode .tc 0 (.hostTx [0x44#8]) = .ok (.htx [0x44#8]) ∧
    decode .tc 0 (.hostTx p62) = .rejected .payloadTooLong := by decide
theorem test_decode_rst : decode .tc 0 .reset = .ok .rst := by decide

/-! ## One operation -/

/-- V-ENC-4, V-ENC-10. -/
theorem test_enc :
    look (·.out.encResult) (exec (.enc [0x41#8, 0xC2#8]) .reset)
      = some (some [0x02#8, 0x41#8, 0xC2#8, 0x05#8, 0x03#8]) ∧
    look (·.out.encResult) (exec (.enc [0x47#8, 0x31#8, 0x30#8, 0x33#8, 0x48#8, 0x35#8]) .reset)
      = some (some [0x02#8, 0x47#8, 0x31#8, 0x30#8, 0x33#8, 0x48#8, 0x35#8, 0x58#8, 0x03#8]) := by decide

/-- V-DEC-3 under both strict options. -/
theorem test_dec :
    look (·.out.decResult) (exec (.dec
        [0x02#8, 0x47#8, 0x31#8, 0x30#8, 0x33#8, 0x48#8, 0x35#8, 0x00#8, 0x03#8]) .reset)
      = some (some (.accepted ⟨0x47#8, 0x31#8, [0x30#8, 0x33#8, 0x48#8, 0x35#8]⟩)) ∧
    look (·.out.decResult) (exec (.dec
        [0x02#8, 0x47#8, 0x31#8, 0x30#8, 0x33#8, 0x48#8, 0x35#8, 0x00#8, 0x03#8]) (.resetWith tcStrict))
      = some (some .rejected) := by decide

/-- V-DEC-4, V-DEC-8, V-DEC-9. -/
theorem test_dec_strict :
    decodeFrame true [0x02#8, 0x46#8, 0x77#8, 0x03#8] = .rejected ∧
    decodeFrame true [0x02#8, 0x01#8, 0x02#8, 0x05#8, 0x03#8] = .accepted ⟨0x01#8, 0x02#8, []⟩ ∧
    decodeFrame true [0x02#8, 0x01#8, 0x02#8, 0x03#8, 0x03#8] = .rejected := by decide

/-- V-OVF-1: the 65th byte. -/
theorem test_ovf : look (fun s => (s.wr, s.out.frameEvt)) (exec (.rxbOvf 0x03#8)
    (holding .tc (.send 0) (0x02#8 :: List.replicate 63 0x30#8))) = some (0, none) := by decide

/-- V-DATA-3: an acknowledgement byte at cursor 1. -/
theorem test_data : look (fun s => (heldBytes s, s.ackFlag)) (exec (.rxbData 0x06#8)
    (holding .tc (.send 0) [0x02#8])) = some ([0x02#8, 0x06#8], false) := by decide

/-- V-ETX-8: a doubled start marker. -/
theorem test_etx : look (fun s => (s.wr, s.tContact, s.ackFlag, s.out.frameEvt)) (exec .rxbEtx
    (holding .tc (.send 0) [0x02#8, 0x02#8, 0x46#8, 0x31#8, 0x77#8]))
      = some (0, some 100, false, some ⟨0x02#8, 0x46#8, [0x31#8]⟩) := by decide

/-- V-DEF-3 and V-DEF-8: the prefixed candidate, accepted and rejected. -/
theorem test_etx_prefixed :
    look (fun s => (s.wr, s.ackFlag, s.out.frameEvt)) (exec .rxbEtx
      (holding tcDeferred (.send 0) [0x06#8, 0x02#8, 0x46#8, 0x31#8, 0x77#8]))
        = some (0, true, some ⟨0x46#8, 0x31#8, []⟩) ∧
    look (fun s => (s.wr, s.ackFlag, s.out.frameEvt)) (exec .rxbEtx
      (holding tcDeferred (.send 0) [0x06#8, 0x02#8, 0x46#8, 0x77#8])) = some (0, true, none) := by decide

/-- V-ACK-1. -/
theorem test_ack : look (fun s => (s.wr, s.ackFlag, s.tContact, s.out.ackEvt)) (exec .rxbAck
    (holding .tc (.send 0) [])) = some (0, true, some 100, true) := by decide

/-- V-NAK-1. -/
theorem test_nak : look (fun s => (s.wr, s.nakFlag, s.ackFlag, s.tContact)) (exec .rxbNak
    (holding .tc (.send 0) [])) = some (0, true, false, none) := by decide

/-- V-DEF-1 and V-DEF-9. -/
theorem test_rxi :
    look (fun s => (s.wr, s.ackFlag, s.tContact)) (exec .rxi (holding tcDeferred (.send 0) [0x06#8]))
      = some (0, true, some 100) ∧
    look (fun s => (s.wr, s.nakFlag, s.tContact)) (exec .rxi (holding tcDeferred (.send 0) [0x15#8]))
      = some (0, true, none) := by decide

/-- V-DEF-7 and V-DEF-11. -/
theorem test_rxi_nothing :
    look (fun s => (s.wr, s.ackFlag)) (exec .rxi (holding tcDeferred (.send 0) [0x06#8, 0x06#8])) = some (2, false) ∧
    look (fun s => (s.wr, s.ackFlag)) (exec .rxi (holding .tc (.send 0) [0x02#8])) = some (1, false) := by decide

/-- V-LSM-4: a flag raised before the send is erased by it. -/
theorem test_send : look (fun s => (s.out.tx, s.link, s.tAction, s.ackFlag, s.nakFlag)) (exec (.lsmSend 0)
    (waiting (.send 0) 1 true true))
      = some ([0x02#8, 0x46#8, 0x38#8, 0x7E#8, 0x03#8], .wait 0, 1, false, false) := by decide

/-- V-LSM-1: 1000 ms and 1001 ms. -/
theorem test_wait_timeout :
    look (·.link) (exec (.lsmWait 0) (waiting (.wait 0) 1000 false false)) = some (.wait 0) ∧
    look (·.link) (exec (.lsmWait 0) (waiting (.wait 0) 1001 false false)) = some (.send 0) := by decide

/-- V-LSM-2 at the last step, V-LSM-3, and `NAK_OK_STEP`. -/
theorem test_wait_flags :
    look (fun s => (s.link, s.ackFlag)) (exec (.lsmWait 2) (waiting (.wait 2) 5000 true false)) = some (.idle, true) ∧
    look (·.link) (exec (.lsmWait 0) (waiting (.wait 0) 20 false true)) = some (.wait 0) ∧
    look (fun s => (s.link, s.nakFlag)) (exec (.lsmWait 1) (waiting (.wait 1) 20 false true))
      = some (.send 2, true) := by decide

/-- V-LSM-7. -/
theorem test_idle : look (fun s => (s.link, s.ackFlag, s.out.tx)) (exec .lsmIdle
    (waiting .idle 9000 true false)) = some (.idle, true, []) := by decide

/-- V-HTX-2, the second line. -/
theorem test_htx : look (fun s => (s.out.tx, s.link, s.tAction, s.ackFlag)) (exec
    (.htx [0x44#8, 0x31#8, 0x31#8, 0x33#8, 0x48#8, 0x35#8]) (waiting .idle 20000 true false))
      = some ([0x02#8, 0x44#8, 0x31#8, 0x31#8, 0x33#8, 0x48#8, 0x35#8, 0x56#8, 0x03#8], .idle, 20000, false) := by
  decide

/-- V-HTX-1. -/
theorem test_htx_refused : look (fun s => (s.out.hostRefused, s.out.tx, s.link)) (exec (.htx [0x44#8, 0x31#8])
    (waiting (.wait 0) 1 false false)) = some (true, [], .wait 0) := by decide

/-- V-RST-1. -/
theorem test_rst : look (fun s => (s.link, s.wr, s.ackFlag, s.tContact)) (exec .rst
    { holding .tc (.wait 2) [0x02#8, 0x47#8] with ackFlag := true, tContact := some 5 })
      = some (.send 0, 0, false, none) := by decide

/-- V-LSM-6: a step-check across the wrap of `now`, through the port of 32 bits. -/
theorem test_step_wrap : look (·.link) (step { waiting (.wait 0) 0 false false with
    tAction := 4294967000, pending := Trace.lsm (4294967296 + 705) }) = some (.send 0) := by decide

/-- The words 0x06 and 0x04 of the operation table, presented after reset. -/
theorem test_fetch_word :
    look (·.out.ackEvt) (step (State.reset.withFetchWord 8 0x06)) = some true ∧
    look (·.link) (step (State.reset.withFetchWord 8 0x04)) = some (.wait 2) := by decide

/-! ## Witnesses: for every statement with hypotheses, what meets them -/

theorem witness_EncResult : p61.length ≤ State.reset.cfg.maxPayload ∧ ([] : List Byte).length ≤ State.reset.cfg.maxPayload := by
  decide

theorem witness_PayloadOutsideDomainRefused : State.reset.cfg.cap - 3 < p62.length := by decide

theorem witness_ChecksumOrderIndependent : [0x01#8, 0x04#8].Perm [0x04#8, 0x01#8] := List.Perm.swap ..

/-- The two grounds for rejection at their boundary (four bytes; five with another first byte), and the shortest
accepted sequence. -/
theorem witness_DecodeResult :
    [0x02#8, 0x46#8, 0x77#8, 0x03#8].length < 5 ∧
    [0x03#8, 0x46#8, 0x31#8, 0x77#8, 0x03#8].head? ≠ some 0x02#8 ∧
    [0x02#8, 0x46#8, 0x31#8, 0x77#8, 0xFF#8] = [0x02#8, 0x46#8, 0x31#8] ++ [] ++ [0x77#8, 0xFF#8] ∧
    State.reset.cfg.strictChecksum = false := by decide

theorem witness_DecIgnoresChecksum : State.reset.cfg.strictChecksum = false := by decide

theorem witness_StrictChecksumTest : (State.resetWith tcStrict).cfg.strictChecksum = true := by decide

theorem witness_CodecRoundTrip :
    [0x46#8, 0x31#8] = 0x46#8 :: 0x31#8 :: [] ∧ [0x46#8].length < 2 := by decide

theorem witness_FrameFormatRoundTrip :
    frameFields [0x02#8, 0x00#8, 0x03#8] = some [] ∧ [0x02#8, 0x00#8, 0x03#8] = encodeFrame [] := by decide

/-- One operation of each row, at the boundary of its operand where it has one. -/
theorem witness_DecodeOfEncode :
    ((Instr.enc p61).wf .tc = true ∧ (Instr.enc p61).selectedAt .tc 0 = true) ∧
    ((Instr.dec []).wf .tc = true ∧ (Instr.dec []).selectedAt .tc 0 = true) ∧
    ((Instr.rxbOvf 0x03#8).wf .tc = true ∧ (Instr.rxbOvf 0x03#8).selectedAt .tc 64 = true) ∧
    (Instr.rxbEtx.wf .tc = true ∧ Instr.rxbEtx.selectedAt .tc 63 = true) ∧
    (Instr.rxbAck.wf .tc = true ∧ Instr.rxbAck.selectedAt .tc 0 = true) ∧
    (Instr.rxbNak.wf .tc = true ∧ Instr.rxbNak.selectedAt .tc 0 = true) ∧
    ((Instr.rxbData 0x06#8).wf .tc = true ∧ (Instr.rxbData 0x06#8).selectedAt .tc 1 = true) ∧
    (Instr.rxi.wf .tc = true ∧ Instr.rxi.selectedAt .tc 0 = true) ∧
    ((Instr.lsmSend 2).wf .tc = true ∧ (Instr.lsmSend 2).selectedAt .tc 0 = true) ∧
    ((Instr.lsmWait 2).wf .tc = true ∧ (Instr.lsmWait 2).selectedAt .tc 0 = true) ∧
    (Instr.lsmIdle.wf .tc = true ∧ Instr.lsmIdle.selectedAt .tc 0 = true) ∧
    ((Instr.htx p61).wf .tc = true ∧ (Instr.htx p61).selectedAt .tc 0 = true) ∧
    (Instr.rst.wf .tc = true ∧ Instr.rst.selectedAt .tc 0 = true) := by decide

theorem witness_EncodeOfDecode : decode .tc 63 (.rxByte 0x15#8) = .ok (.rxbData 0x15#8) := by decide

theorem witness_OverflowResult :
    (holding .tc (.send 0) (List.replicate 64 0x30#8)).wr = Config.tc.cap := by decide

/-- The last free cell; a reserved byte at cursor 1; and at cursor 0 where recognition is deferred. -/
theorem witness_DataResult :
    ((holding .tc .idle (List.replicate 63 0x30#8)).wr < Config.tc.cap ∧ (0x02#8 : Byte) ≠ 0x03#8 ∧
      ¬ ((holding .tc .idle (List.replicate 63 0x30#8)).wr = 0 ∧ ((0x02#8 : Byte) = 0x06#8 ∨ (0x02#8 : Byte) = 0x15#8) ∧
        Config.tc.soleByteDeferred = false)) ∧
    ((holding .tc .idle [0x02#8]).wr < Config.tc.cap ∧ (0x06#8 : Byte) ≠ 0x03#8 ∧
      ¬ ((holding .tc .idle [0x02#8]).wr = 0 ∧ ((0x06#8 : Byte) = 0x06#8 ∨ (0x06#8 : Byte) = 0x15#8) ∧
        Config.tc.soleByteDeferred = false)) ∧
    ((holding tcDeferred .idle []).wr < tcDeferred.cap ∧ (0x06#8 : Byte) ≠ 0x03#8 ∧
      ¬ ((holding tcDeferred .idle []).wr = 0 ∧ ((0x06#8 : Byte) = 0x06#8 ∨ (0x06#8 : Byte) = 0x15#8) ∧
        tcDeferred.soleByteDeferred = false)) := by decide

theorem witness_SoleAckResult :
    State.reset.wr = 0 ∧ 0 < State.reset.cfg.cap ∧ State.reset.cfg.soleByteDeferred = false := by decide

theorem witness_SoleNakResult :
    State.reset.wr = 0 ∧ 0 < State.reset.cfg.cap ∧ State.reset.cfg.soleByteDeferred = false := by decide

/-- A state for each of the three clauses: the shortest prefixed candidate, the shortest with a start marker in front,
the marker alone and an acknowledgement byte with the marker. -/
theorem witness_EndMarkerResult :
    ((holding tcDeferred .idle [0x06#8, 0x02#8]).wr < tcDeferred.cap ∧
      heldBytes (holding tcDeferred .idle [0x06#8, 0x02#8]) ++ [0x03#8] = 0x06#8 :: 0x02#8 :: [0x03#8]) ∧
    ((holding .tc .idle [0x02#8]).wr < Config.tc.cap ∧
      heldBytes (holding .tc .idle [0x02#8]) ++ [0x03#8] = 0x02#8 :: [0x03#8]) ∧
    ((holding .tc .idle []).wr < Config.tc.cap ∧
      (heldBytes (holding .tc .idle []) ++ [0x03#8]).take 2 ≠ [0x06#8, 0x02#8] ∧
      (heldBytes (holding .tc .idle []) ++ [0x03#8]).head? ≠ some 0x02#8) ∧
    ((holding tcDeferred .idle [0x06#8]).wr < tcDeferred.cap ∧
      (heldBytes (holding tcDeferred .idle [0x06#8]) ++ [0x03#8]).take 2 ≠ [0x06#8, 0x02#8] ∧
      (heldBytes (holding tcDeferred .idle [0x06#8]) ++ [0x03#8]).head? ≠ some 0x02#8) := by decide

theorem witness_ReceiveIdleResult :
    State.reset.cfg.soleByteDeferred = false ∧
    (holding tcDeferred .idle [0x06#8, 0x06#8]).wr ≠ 1 ∧
    (accRead (holding tcDeferred .idle [0x02#8]) 0 ≠ 0x06#8 ∧ accRead (holding tcDeferred .idle [0x02#8]) 0 ≠ 0x15#8) ∧
    (tcDeferred.soleByteDeferred = true ∧ (holding tcDeferred .idle [0x06#8]).wr = 1 ∧
      accRead (holding tcDeferred .idle [0x06#8]) 0 = 0x06#8) ∧
    (tcDeferred.soleByteDeferred = true ∧ (holding tcDeferred .idle [0x15#8]).wr = 1 ∧
      accRead (holding tcDeferred .idle [0x15#8]) 0 = 0x15#8) := by decide

/-- Each of the six operations of the demultiplexer answers a next state somewhere. -/
theorem witness_DemultiplexerFrame :
    (∃ t, exec (.rxbOvf 0x03#8) (holding .tc .idle (List.replicate 64 0x30#8)) = .next t) ∧
    (∃ t, exec .rxbEtx (holding .tc .idle [0x02#8]) = .next t) ∧
    (∃ t, exec .rxbAck State.reset = .next t) ∧
    (∃ t, exec .rxbNak State.reset = .next t) ∧
    (∃ t, exec (.rxbData 0x02#8) State.reset = .next t) ∧
    (∃ t, exec .rxi State.reset = .next t) :=
  ⟨⟨_, rfl⟩, ⟨_, rfl⟩, ⟨_, rfl⟩, ⟨_, rfl⟩, ⟨_, rfl⟩, ⟨_, rfl⟩⟩

/-- The operations of both clauses that the last witness does not name. -/
theorem witness_AccumulatorFrame :
    (∃ t, exec (.rxbData 0x02#8) (holding .tc .idle (List.replicate 63 0x30#8)) = .next t) ∧
    (∃ t, exec (.lsmSend 0) State.reset = .next t) ∧
    (∃ t, exec (.lsmWait 0) (waiting (.wait 0) 0 false false) = .next t) ∧
    (∃ t, exec .lsmIdle (waiting .idle 0 false false) = .next t) ∧
    (∃ t, exec (.htx []) (waiting .idle 0 false false) = .next t) ∧
    (∃ t, exec (.enc []) State.reset = .next t) ∧
    (∃ t, exec (.dec []) State.reset = .next t) :=
  ⟨⟨_, rfl⟩, ⟨_, rfl⟩, ⟨_, rfl⟩, ⟨_, rfl⟩, ⟨_, rfl⟩, ⟨_, rfl⟩, ⟨_, rfl⟩⟩

/-- An acknowledgement with a frame, and a negative-acknowledgement. -/
theorem witness_EventsExclusive :
    look (fun s => (s.out.ackEvt, s.out.frameEvt.isSome)) (exec .rxbEtx
      (holding tcDeferred .idle [0x06#8, 0x02#8, 0x46#8, 0x31#8, 0x77#8])) = some (true, true) ∧
    look (·.out.nakEvt) (exec .rxbNak State.reset) = some true ∧
    look (·.out.nakEvt) (exec .rxi (holding tcDeferred .idle [0x15#8])) = some true ∧
    look (·.out.ackEvt) (exec .rxi (holding tcDeferred .idle [0x06#8])) = some true := by decide

/-- An event in each of the three ways. -/
theorem witness_AckEventEffects :
    look (fun s => (s.out.ackEvt, s.ackFlag)) (exec .rxbAck State.reset) = some (true, true) ∧ State.reset.ackFlag = false ∧
    look (·.out.ackEvt) (exec .rxbEtx (holding tcDeferred .idle [0x06#8, 0x02#8])) = some true ∧
    look (·.out.ackEvt) (exec .rxi (holding tcDeferred .idle [0x06#8])) = some true := by decide

/-- The longest body: a candidate of `CAP` bytes, for `CAP = 5`. -/
theorem witness_FrameEventEffects :
    look (fun s => (s.out.frameEvt, s.out.ackEvt)) (exec .rxbEtx
      (holding { Config.tc with cap := 5 } .idle [0x02#8, 0x46#8, 0x31#8, 0x77#8]))
        = some (some ⟨0x46#8, 0x31#8, []⟩, false) := by decide

theorem witness_DemultiplexerBlindToPhase :
    (∃ t, exec (decodeRxByte Config.tc 0 0x06#8) State.reset = .next t) ∧ ∃ t, exec .rxi State.reset = .next t :=
  ⟨⟨_, rfl⟩, ⟨_, rfl⟩⟩

/-- The shortest payload, and one of `MAX_PAYLOAD` bytes for the smallest capacity. -/
theorem witness_FedFrameIsReceived :
    Config.tc.wf = true ∧ State.reset.wr = 0 ∧ [0x46#8, 0x31#8].length ≤ Config.tc.cap - 3 ∧
    0x03#8 ∉ [0x46#8, 0x31#8] ∧ [0x46#8, 0x31#8].length ≤ { Config.tc with cap := 5 : Config }.cap - 3 ∧
    { Config.tc with cap := 5 : Config }.wf = true ∧
    ({ State.reset with pending := Trace.rxframe [0x46#8, 0x31#8] 7 } : State).pending
      = Trace.rxframe [0x46#8, 0x31#8] 7 ++ [] := by decide

/-- The smallest capacities: 5 where the acknowledgement is taken on arrival, 6 where it is held. -/
theorem witness_PrefixedFrameIsReceived :
    ({ Config.tc with cap := 5 : Config }.wf = true ∧ (State.resetWith { Config.tc with cap := 5 }).wr = 0 ∧
      [0x46#8, 0x31#8].length ≤ { Config.tc with cap := 5 : Config }.cap - 3 ∧
      ({ Config.tc with cap := 5 : Config }.soleByteDeferred = true →
        [0x46#8, 0x31#8].length + 4 ≤ { Config.tc with cap := 5 : Config }.cap)) ∧
    ({ tcDeferred with cap := 6 : Config }.wf = true ∧ (State.resetWith { tcDeferred with cap := 6 }).wr = 0 ∧
      [0x46#8, 0x31#8].length ≤ { tcDeferred with cap := 6 : Config }.cap - 3 ∧
      [0x46#8, 0x31#8].length + 4 ≤ { tcDeferred with cap := 6 : Config }.cap) ∧
    0x03#8 ∉ [0x46#8, 0x31#8] ∧
    ({ State.resetWith { tcDeferred with cap := 6 } with
        pending := Trace.rxs (0x06#8 :: encodeFrame [0x46#8, 0x31#8]) 7 } : State).pending
      = Trace.rxs (0x06#8 :: encodeFrame [0x46#8, 0x31#8]) 7 ++ [] := by decide

theorem witness_SendResult :
    Config.tc.wf = true ∧ (waiting (.send 2) 0 false false).link = .send 2 ∧
    Config.tc.initCmd[2]? = some [0x46#8, 0x31#8] := by decide

/-- A step before the last, and the last. -/
theorem witness_WaitAdvancesOnAck :
    ((waiting (.wait 1) 0 true false).link = .wait 1 ∧ 1 < Config.tc.nSteps ∧ (waiting (.wait 1) 0 true false).ackFlag = true) ∧
    ((waiting (.wait 2) 0 true false).link = .wait 2 ∧ 2 < Config.tc.nSteps) := by decide

theorem witness_WaitAndNak :
    ((waiting (.wait 1) 0 false true).link = .wait 1 ∧ 1 < Config.tc.nSteps ∧ 1 = Config.tc.nakOkStep ∧
      (waiting (.wait 1) 0 false true).nakFlag = true) ∧
    (2 < Config.tc.nSteps ∧ 2 ≠ Config.tc.nakOkStep ∧
      look (·.link) (exec (.lsmWait 2) (waiting (.wait 2) 0 false true)) = some (.wait 2)) := by decide

/-- At 1000 ms and at 1001 ms, and at `NAK_OK_STEP` without a negative-acknowledgement. -/
theorem witness_WaitTimesOut :
    ((waiting (.wait 0) 1000 false true).link = .wait 0 ∧ 0 < Config.tc.nSteps ∧
      (waiting (.wait 0) 1000 false true).ackFlag = false ∧
      ¬ (0 = Config.tc.nakOkStep ∧ (waiting (.wait 0) 1000 false true).nakFlag = true)) ∧
    ((waiting (.wait 1) 1001 false false).ackFlag = false ∧
      ¬ (1 = Config.tc.nakOkStep ∧ (waiting (.wait 1) 1001 false false).nakFlag = true)) := by decide

theorem witness_IdleIsTerminal :
    (waiting .idle 0 false false).link = .idle ∧
    look (·.link) (exec (.htx []) (waiting .idle 0 false false)) = some .idle ∧ Instr.htx [] ≠ .rst := by decide

theorem witness_ArmsAreStepCheck :
    (waiting (.wait 2) 0 false false).link.inRange .tc = true ∧ (LinkState.send 0).inRange .tc = true ∧
    LinkState.idle.inRange .tc = true := by decide

theorem witness_StepCheckInputs :
    (∃ t, exec (.lsmSend 0) State.reset = .next t) ∧
    (∃ t, exec (.lsmWait 0) (waiting (.wait 0) 1001 false false) = .next t) ∧
    (∃ t, exec .lsmIdle (waiting .idle 0 false false) = .next t) :=
  ⟨⟨_, rfl⟩, ⟨_, rfl⟩, ⟨_, rfl⟩⟩

/-- Each of the successors occurs. -/
theorem witness_LinkStateSuccessors :
    look (·.link) (exec (.lsmSend 0) State.reset) = some (.wait 0) ∧
    look (·.link) (exec (.lsmWait 1) (waiting (.wait 1) 0 true false)) = some (.send 2) ∧
    look (·.link) (exec (.lsmWait 2) (waiting (.wait 2) 0 true false)) = some .idle ∧
    look (·.link) (exec (.lsmWait 2) (waiting (.wait 2) 1001 false false)) = some (.send 2) ∧
    State.reset.link.inRange .tc = true := by decide

/-- Across the wrap, and the longest interval. -/
theorem witness_ElapsedIsTrueTime :
    (4294967000 ≤ 4294968001 ∧ 4294968001 < 4294967000 + 2 ^ Config.tc.timeW) ∧
    (0 ≤ 4294967295 ∧ 4294967295 < 0 + 2 ^ Config.tc.timeW) := by decide

/-- The times of three turns, and their strobes. -/
def promptTimes : List (Nat × Nat × Nat × Nat) := [(0, 1, 1, 2), (3, 4, 4, 5), (6, 7, 7, 8)]
def promptTrace : List Stimulus := promptTimes.flatMap fun t =>
  Trace.lsm t.1 ++ Trace.rx 0x06#8 t.2.1 ++ Trace.rxi t.2.2.1 ++ Trace.lsm t.2.2.2

theorem witness_PromptAcksReachIdle :
    Config.tc.wf = true ∧ State.reset.link = .send 0 ∧ State.reset.wr = 0 ∧
    promptTimes.length = Config.tc.nSteps ∧
    ({ State.reset with pending := promptTrace } : State).pending
      = (promptTimes.flatMap fun t =>
          Trace.lsm t.1 ++ Trace.rx 0x06#8 t.2.1 ++ Trace.rxi t.2.2.1 ++ Trace.lsm t.2.2.2) ++ [] := by decide

/-- Two retries of an action at time 0. -/
def retryTrace : List Stimulus := (List.range 2).flatMap fun j =>
  Trace.lsm (0 + 1001 * (j + 1)) ++ Trace.lsm (0 + 1001 * (j + 1))

theorem witness_RetriesUnbounded :
    Config.tc.wf = true ∧ (waiting (.wait 1) 0 false false).link = .wait 1 ∧
    Config.tc.initCmd[1]? = some [0x41#8, 0xC2#8] ∧ (waiting (.wait 1) 0 false false).ackFlag = false ∧
    (1 = Config.tc.nakOkStep → (waiting (.wait 1) 0 false false).nakFlag = false) ∧
    1001 < 2 ^ Config.tc.timeW ∧ (waiting (.wait 1) 0 false false).tAction < 2 ^ Config.tc.timeW ∧
    ({ waiting (.wait 1) 0 false false with pending := retryTrace } : State).pending
      = ((List.range 2).flatMap fun j =>
          Trace.lsm (0 + 1001 * (j + 1)) ++ Trace.lsm (0 + 1001 * (j + 1))) ++ [] := by decide

theorem witness_HostSendAccepted :
    (waiting .idle 0 true true).link = .idle ∧ p61.length ≤ (waiting .idle 0 true true).cfg.cap - 3 := by decide

theorem witness_HostSendRefused :
    State.reset.link ≠ .idle ∧ (waiting (.wait 2) 0 false false).link ≠ .idle ∧
    p61.length ≤ State.reset.cfg.cap - 3 := by decide

/-- A transmission and a flag cleared, by each of the operations that may. -/
theorem witness_PhaseOwnership :
    look (fun s => (s.tx, s.ackFlag, s.nakFlag)) (exec (.lsmSend 0) (waiting (.send 0) 0 true true))
      = some ([0x02#8, 0x46#8, 0x38#8, 0x7E#8, 0x03#8], false, false) ∧
    look (fun s => (s.tx, s.ackFlag, s.nakFlag)) (exec (.htx []) (waiting .idle 0 true true))
      = some ([0x02#8, 0x00#8, 0x03#8], false, false) ∧
    look (fun s => (s.ackFlag, s.nakFlag)) (exec .rst (waiting .idle 0 true true)) = some (false, false) := by decide

/-- The first and the last code of each kind; an operation of each clause. -/
theorem witness_LevelOutputs :
    ((waiting (.send 0) 0 true true).link = .send 0 ∧ (waiting (.send 2) 0 true true).link = .send 2) ∧
    ((waiting (.wait 0) 0 true true).link = .wait 0 ∧ (waiting (.wait 2) 0 true true).link = .wait 2) ∧
    (waiting .idle 0 true true).link = .idle ∧
    ((waiting .idle 0 true true).link.inRange .tc = true ∧ (waiting (.wait 2) 0 true true).link.inRange .tc = true) ∧
    (∃ t, perform .observe (waiting .idle 0 true true) = .next t) ∧
    look (·.ackFlag) (exec (.htx []) (waiting (.wait 2) 0 true true)) = some true ∧
    (∃ t, exec .rst (waiting .idle 0 true true) = .next t) ∧
    (∃ t, exec (.enc []) (waiting .idle 0 true true) = .next t) ∧
    (∃ t, exec (.dec []) (waiting .idle 0 true true) = .next t) :=
  ⟨⟨rfl, rfl⟩, ⟨rfl, rfl⟩, rfl, ⟨rfl, rfl⟩, ⟨_, rfl⟩, rfl, ⟨_, rfl⟩, ⟨_, rfl⟩, _, rfl⟩

/-- One ms before the interval ends, and at its end (V-CON-1's boundary). -/
theorem witness_ConnectedLevel :
    Config.tc.wf = true ∧
    ({ State.reset with tContact := some 95, pending := [{ op := .observe, now := 10094 }] } : State).pending
      = { op := .observe, now := 10094 } :: [] ∧
    ({ State.reset with tContact := some 95, pending := [{ op := .observe, now := 10095 }] } : State).tContact
      = some (95 % 2 ^ Config.tc.timeW) ∧ 95 ≤ 10094 ∧ 95 ≤ 10095 := by decide

theorem witness_ResetState : Config.tc.wf = true := by decide

/-- A received byte, and a step-check. -/
theorem witness_StepRunsDecoded :
    Config.tc.wf = true ∧
    (({ State.reset with pending := [{ op := .rx 0x06#8, now := 20 }] } : State).pending
      = { op := .rx 0x06#8, now := 20 } :: [] ∧
    (PortOp.rx 0x06#8 = .lsm → State.reset.link.inRange .tc = true) ∧
    portWord { State.reset with pending := [{ op := .rx 0x06#8, now := 20 }] } (.rx 0x06#8) = some (.rxByte 0x06#8) ∧
    decode .tc 0 (.rxByte 0x06#8) = .ok .rxbAck) ∧
    (({ State.reset with pending := [{ op := .lsm, now := 20 }] } : State).pending = { op := .lsm, now := 20 } :: [] ∧
    (PortOp.lsm = .lsm → State.reset.link.inRange .tc = true) ∧
    portWord { State.reset with pending := [{ op := .lsm, now := 20 }] } .lsm = some (.lsmStep 0) ∧
    decode .tc 0 (.lsmStep 0) = .ok (.lsmSend 0)) := by decide

theorem witness_StepWithoutOperation :
    Config.tc.wf = true ∧ State.reset.pending = [] ∧
    ({ State.reset with pending := [{ op := .observe, now := 20 }] } : State).pending
      = { op := .observe, now := 20 } :: [] := by decide

theorem witness_FetchWordRunsNext :
    decodeTableWord 8 0x15 = some .rxbNak ∧ decodeTableWord 8 0x05 = some (.lsmWait 2) := by decide

/-- A state of the invariant that holds two bytes, and a step on it. -/
def held2 : State := { holding .tc (.wait 0) [0x02#8, 0x46#8] with pending := [{ op := .rx 0x31#8, now := 101 }] }

theorem inv_held2 : Inv held2 where
  params := by decide
  cursor := by decide
  link := by decide
  memory := by decide
  cells := by decide
  written := by decide
  noEtx := by decide
  firstByte := by decide
  action := by decide
  contact := fun t h => by cases h
  clock := by decide

theorem witness_StepKeepsInvariant : Inv held2 ∧ ∃ t, step held2 = .next t := ⟨inv_held2, _, rfl⟩

theorem witness_NoStopOnAdmittedInput :
    Inv held2 ∧ ∀ st ∈ held2.pending.head?, st.op.admitted held2.cfg = true := ⟨inv_held2, by decide⟩

/-- The cursor at `CAP`, and at `CAP - 1` with an append. -/
theorem witness_CursorBound :
    look (·.wr) (exec (.rxbOvf 0x30#8) (holding .tc .idle (List.replicate 64 0x30#8))) = some 0 ∧
    (holding .tc .idle (List.replicate 64 0x30#8)).wr ≤ Config.tc.cap ∧
    look (·.wr) (exec (.rxbData 0x30#8) (holding .tc .idle (List.replicate 63 0x30#8))) = some 64 := by decide

theorem witness_ParametersNeverWritten : ∃ t, step held2 = .next t := ⟨_, rfl⟩

/-- Two states that differ in `t_action` before the first send and in a cell beyond the cursor. -/
theorem witness_UnspecifiedNeverRead :
    SameButUnspecified State.reset { State.reset with tAction := 7, acc := [(3, 0x55#8)] } ∧
    ∃ t, step State.reset = .next t :=
  ⟨{ cfg := rfl, link := rfl, wr := rfl, action := fun _ h => (by cases h), contact := rfl, ack := rfl, nak := rfl,
     cells := fun _ h => (by cases h), now := rfl, rx := rfl, tx := rfl, out := rfl, pending := rfl, draws := rfl },
   _, rfl⟩

theorem witness_ErrorEntries : (waiting (.wait 2) 0 false false).link = .wait 2 := by decide

theorem witness_SameCycleByteFirst :
    Config.tc.wf = true ∧ (waiting (.wait 2) 0 false false).link = .wait 2 ∧ 2 < Config.tc.nSteps ∧
    (waiting (.wait 2) 0 false false).wr = 0 ∧ Config.tc.soleByteDeferred = false ∧
    ({ waiting (.wait 2) 0 false false with pending := Trace.sameCycle 0x06#8 9 } : State).pending
      = Trace.sameCycle 0x06#8 9 ++ [] := by decide

/-- An arm that is not selected; a link state beyond the table; a cursor just above `CAP`; parameters that break R5. -/
theorem witness_StopsByName :
    selected .rxbAck (holding .tc .idle [0x02#8]) = false ∧
    (Config.tc.wf = true ∧ (LinkState.wait 3).inRange .tc = false ∧
      ({ waiting (.wait 3) 0 false false with pending := [{ op := .lsm, now := 0 }] } : State).pending
        = { op := .lsm, now := 0 } :: []) ∧
    (Config.tc.wf = true ∧ Config.tc.cap < ({ State.reset with wr := 65 } : State).wr ∧
      ({ State.reset with wr := 65, pending := [{ op := .rx 0x03#8, now := 0 }] } : State).pending
        = { op := .rx 0x03#8, now := 0 } :: [] ∧ (0x06#8 : Byte) ≠ 0x03#8) ∧
    (State.resetWith { initCmd := [], nakOkStep := 0 }).cfg.wf = false := by decide

end Sys2Proof.Tests
end

section
/-! What an operation does to the link state register and to the cursor (spec/10_state.md R11, R12). -/

namespace Sys2Proof.Machine

/-! ## The link state -/

variable {i : Instr} {s t : State}

@[simp] theorem idleChecked_link (s : State) : (idleChecked s).link = s.link := by
  unfold idleChecked
  split_ifs <;> rfl

/-- The codes of the states that exist end at IDLE's (R10). -/
theorem LinkState.code_le_of_inRange {c : Config} {l : LinkState} (h : l.inRange c = true) :
    l.code c ≤ 2 * c.nSteps := by
  cases l with
  | send k | wait k =>
    have hk : k < c.nSteps := by simpa [LinkState.inRange] using h
    simp only [LinkState.code]
    omega
  | idle => exact le_rfl

theorem nextStep_inRange (k : Nat) (s : State) : (nextStep k s).inRange s.cfg = true := by
  unfold nextStep
  split_ifs with h
  · simpa [LinkState.inRange] using h
  · rfl

/-- Below `N_STEPS` the successor on an acknowledgement is the next send state, or IDLE after the last step. -/
theorem nextStep_cases {k : Nat} (hk : k < s.cfg.nSteps) :
    (k + 1 < s.cfg.nSteps ∧ nextStep k s = .send (k + 1)) ∨
    (k + 1 = s.cfg.nSteps ∧ nextStep k s = .idle) := by
  by_cases h : k + 1 < s.cfg.nSteps
  · exact .inl ⟨h, if_pos h⟩
  · exact .inr ⟨by omega, if_neg h⟩

/-- Everything an operation other than RST can do to the link state. -/
theorem exec_link_cases (he : exec i s = .next t) (hr : i ≠ .rst) :
    t.link = s.link ∨
    (∃ k, i = .lsmSend k ∧ s.link = .send k ∧ k < s.cfg.nSteps ∧ t.link = .wait k) ∨
    (∃ k, i = .lsmWait k ∧ s.link = .wait k ∧ k < s.cfg.nSteps ∧
      (t.link = nextStep k s ∨ TimedOut s ∧ t.link = .send k)) := by
  cases i with
  | enc p => obtain ⟨-, rfl⟩ := execEnc_next.1 he; exact .inl rfl
  | dec r => obtain rfl := execDec_next.1 he; exact .inl rfl
  | rxbOvf b => obtain ⟨-, rfl⟩ := execRxbOvf_next.1 he; exact .inl rfl
  | rxbEtx =>
    obtain ⟨-, rfl⟩ := execRxbEtx_next.1 he
    obtain ⟨-, hlink, -⟩ := endMarker_frame (appended ETX (takeRx ETX (quiet s)))
    exact .inl hlink
  | rxbAck => obtain ⟨-, rfl⟩ := execRxbAck_next.1 he; exact .inl rfl
  | rxbNak => obtain ⟨-, rfl⟩ := execRxbNak_next.1 he; exact .inl rfl
  | rxbData b => obtain ⟨-, -, rfl⟩ := execRxbData_next.1 he; exact .inl rfl
  | rxi => obtain rfl := execRxi_next.1 he; exact .inl (idleChecked_link _)
  | lsmSend k =>
    obtain ⟨hl, p, hp, -, rfl⟩ := execLsmSend_next.1 he
    obtain ⟨hk, -⟩ := List.getElem?_eq_some_iff.1 hp
    exact .inr (.inl ⟨k, rfl, hl, hk, rfl⟩)
  | lsmWait k =>
    obtain ⟨hl, hk, rfl⟩ := execLsmWait_next.1 he
    split_ifs with hadv hto
    · exact .inr (.inr ⟨k, rfl, hl, hk, .inl rfl⟩)
    · exact .inr (.inr ⟨k, rfl, hl, hk, .inr ⟨hto, rfl⟩⟩)
    · exact .inl rfl
  | lsmIdle => obtain ⟨-, rfl⟩ := execLsmIdle_next.1 he; exact .inl rfl
  | htx p => obtain ⟨-, rfl⟩ := execHtx_next.1 he; split_ifs <;> exact .inl rfl
  | rst => exact absurd rfl hr

/-- An operation other than RST keeps the link state among those that exist; RST needs a first step (R5). -/
theorem exec_keeps_link_inRange (he : exec i s = .next t) (hr : i ≠ .rst)
    (h : s.link.inRange s.cfg = true) : t.link.inRange t.cfg = true := by
  obtain ⟨hcfg, -⟩ := exec_keeps he
  rw [hcfg]
  rcases exec_link_cases he hr with hl | ⟨k, -, -, hk, hl⟩ | ⟨k, -, -, hk, hl | ⟨-, hl⟩⟩ <;> rw [hl]
  · exact h
  · simpa [LinkState.inRange] using hk
  · exact nextStep_inRange k s
  · simpa [LinkState.inRange] using hk

/-! ## The cursor -/

@[simp] theorem endMarker_wr (s : State) : (endMarker s).wr = 0 := by
  obtain ⟨-, -, -, -, -, -, -, -, -, hwr, -⟩ := endMarker_frame s
  exact hwr

theorem idleChecked_wr (s : State) : (idleChecked s).wr = s.wr ∨ (idleChecked s).wr = 0 := by
  unfold idleChecked
  split_ifs
  · exact .inr rfl
  · exact .inr rfl
  · exact .inl rfl
  · exact .inl rfl

/-- The operations R12 allows to write the cursor: RST, RXI and the arms of RXB. -/
def WritesCursor (i : Instr) : Prop :=
  i = .rst ∨ i = .rxi ∨ (∃ b, i = .rxbOvf b) ∨ i = .rxbEtx ∨ i = .rxbAck ∨ i = .rxbNak ∨ ∃ b, i = .rxbData b

/-- An operation that R12 does not list leaves the cursor. -/
theorem exec_keeps_wr (he : exec i s = .next t) (hw : ¬ WritesCursor i) : t.wr = s.wr := by
  cases i with
  | enc p => obtain ⟨-, rfl⟩ := execEnc_next.1 he; rfl
  | dec r => obtain rfl := execDec_next.1 he; rfl
  | lsmSend k => obtain ⟨-, p, -, -, rfl⟩ := execLsmSend_next.1 he; rfl
  | lsmWait k => obtain ⟨-, -, rfl⟩ := execLsmWait_next.1 he; split_ifs <;> rfl
  | lsmIdle => obtain ⟨-, rfl⟩ := execLsmIdle_next.1 he; rfl
  | htx p => obtain ⟨-, rfl⟩ := execHtx_next.1 he; split_ifs <;> rfl
  | rxbOvf | rxbEtx | rxbAck | rxbNak | rxbData | rxi | rst => simp [WritesCursor] at hw

/-- The three things an operation can do to the cursor: keep it, reset it, or advance it by one below `CAP`. -/
theorem exec_wr_cases (he : exec i s = .next t) :
    t.wr = s.wr ∨ t.wr = 0 ∨ (s.wr < s.cfg.cap ∧ t.wr = s.wr + 1) := by
  cases i with
  | enc | dec | lsmSend | lsmWait | lsmIdle | htx => exact .inl (exec_keeps_wr he (by simp [WritesCursor]))
  | rxbOvf b => obtain ⟨-, rfl⟩ := execRxbOvf_next.1 he; exact .inr (.inl rfl)
  | rxbEtx => obtain ⟨-, rfl⟩ := execRxbEtx_next.1 he; exact .inr (.inl (endMarker_wr _))
  | rxbAck => obtain ⟨-, rfl⟩ := execRxbAck_next.1 he; exact .inr (.inl rfl)
  | rxbNak => obtain ⟨-, rfl⟩ := execRxbNak_next.1 he; exact .inr (.inl rfl)
  | rxbData b => obtain ⟨-, hlt, rfl⟩ := execRxbData_next.1 he; exact .inr (.inr ⟨hlt, rfl⟩)
  | rxi =>
    obtain rfl := execRxi_next.1 he
    exact (idleChecked_wr (quiet s)).imp_right .inl
  | rst => obtain rfl := execRst_next.1 he; exact .inr (.inl rfl)

theorem exec_keeps_wr_le_cap (he : exec i s = .next t) (h : s.wr ≤ s.cfg.cap) : t.wr ≤ t.cfg.cap := by
  obtain ⟨hcfg, -⟩ := exec_keeps he
  rw [hcfg]
  rcases exec_wr_cases he with hw | hw | ⟨hlt, hw⟩ <;> omega

end Sys2Proof.Machine

namespace Sys2Proof.Proofs

open Sys2Proof.Machine

/-- Settles O36: the inversion of every operation on the link state, with the two ways to advance told apart. -/
theorem linkStateSuccessors : Obligations.LinkStateSuccessors := by
  intro i s t he hr
  refine ⟨?_, fun h => LinkState.code_le_of_inRange (exec_keeps_link_inRange he hr h)⟩
  rcases exec_link_cases he hr with hl | ⟨k, hi, hs, -, hl⟩ | ⟨k, hi, hs, hk, hl | ⟨hto, hl⟩⟩
  · exact .inl hl
  · exact .inr (.inl ⟨k, hi, hs, hl⟩)
  · refine .inr (.inr ⟨k, hi, hs, ?_⟩)
    rw [hl]
    exact (nextStep_cases hk).imp_right .inl
  · exact .inr (.inr ⟨k, hi, hs, .inr (.inr ⟨hto, hl⟩)⟩)

/-- Settles O52: an operation keeps, resets or advances the cursor below `CAP`, and those not listed keep it. -/
theorem cursorBound : Obligations.CursorBound := by
  intro i s t hb he
  exact ⟨exec_keeps_wr_le_cap he hb, fun hne => not_not.1 fun hw => hne (exec_keeps_wr he hw)⟩

end Sys2Proof.Proofs
end

section
/-! What ENC and DEC answer when performed by themselves (spec/40_frame_codec.md R56, R58, R59). -/

namespace Sys2Proof.Machine

/-- R56 with the escape substitution of R43 written out. -/
theorem encodeFrame_eq (p : List Byte) : encodeFrame p =
    [0x02#8] ++ p ++ [if sum8 p = 0x03#8 then 0x05#8 else sum8 p, 0x03#8] := rfl

/-- Without the strict option, DEC accepts every frame of decodable shape, whatever stands in the places of the
checksum and of the end marker. -/
theorem exec_dec_accepts {s : State} (hs : s.cfg.strictChecksum = false) (a b k e : Byte) (body : List Byte) :
    exec (.dec ([STX, a, b] ++ body ++ [k, e])) s =
      .next { s with out := { decResult := some (.accepted ⟨a, b, body⟩) } } := by
  refine execDec_next.2 ?_
  rw [decodeFrame_of_shape, if_neg (by simp [hs])]

end Sys2Proof.Machine

namespace Sys2Proof.Proofs

open Sys2Proof.Machine

/-- Settles O1: ENC answers exactly on its domain, and its result is the frame with the checksum written out. -/
theorem encResult : Obligations.EncResult := by
  intro p s hp
  refine execEnc_next.2 ⟨hp, ?_⟩
  rw [encodeFrame_eq]

/-- Settles O6: the fields DEC accepts do not mention the checksum byte. -/
theorem decIgnoresChecksum : Obligations.DecIgnoresChecksum := by
  intro a b k k' body s hs
  have accepts (k : Byte) := exec_dec_accepts hs a b k ETX body
  exact ⟨(accepts k).trans (accepts k').symm, ⟨_, accepts k⟩,
    exec_dec_accepts hs 0x47#8 0x31#8 0x00#8 ETX [0x30#8, 0x33#8, 0x48#8, 0x35#8]⟩

end Sys2Proof.Proofs
end

section
/-! What the arms of RXB and RXI do: where an event comes from and what it writes, and what the demultiplexer reads
(spec/41_rx_demux.md R67, R73, R75, R78). -/

namespace Sys2Proof.Machine

variable {i : Instr} {s t : State}

/-! ## The arms of the demultiplexer -/

/-- The operations of the Receive Demultiplexer: the arms of RXB, and RXI. -/
def OfDemux (i : Instr) : Prop :=
  (∃ b, i = .rxbOvf b) ∨ i = .rxbEtx ∨ i = .rxbAck ∨ i = .rxbNak ∨ (∃ b, i = .rxbData b) ∨ i = .rxi

theorem decodeRxByte_ofDemux (c : Config) (wr : Nat) (b : Byte) : OfDemux (decodeRxByte c wr b) := by
  unfold decodeRxByte
  split_ifs <;> simp [OfDemux]

/-- The states RXI can leave: an acknowledgement, a negative-acknowledgement, or nothing. -/
theorem idleChecked_cases (s : State) :
    idleChecked s = clearAcc (raiseAck s) ∨ idleChecked s = clearAcc (raiseNak s) ∨ idleChecked s = s := by
  unfold idleChecked
  split_ifs
  · exact .inl rfl
  · exact .inr (.inl rfl)
  · exact .inr (.inr rfl)
  · exact .inr (.inr rfl)

/-- The demultiplexer writes neither the link state nor the action timestamp, and transmits nothing. -/
theorem exec_ofDemux_frame (hi : OfDemux i) (he : exec i s = .next t) :
    t.link = s.link ∧ t.tAction = s.tAction ∧ t.tx = s.tx := by
  rcases hi with ⟨b, rfl⟩ | rfl | rfl | rfl | ⟨b, rfl⟩ | rfl
  · obtain ⟨-, rfl⟩ := execRxbOvf_next.1 he; exact ⟨rfl, rfl, rfl⟩
  · obtain ⟨-, rfl⟩ := execRxbEtx_next.1 he
    obtain ⟨-, hlink, haction, htx, -⟩ := endMarker_frame (appended ETX (takeRx ETX (quiet s)))
    exact ⟨hlink, haction, htx⟩
  · obtain ⟨-, rfl⟩ := execRxbAck_next.1 he; exact ⟨rfl, rfl, rfl⟩
  · obtain ⟨-, rfl⟩ := execRxbNak_next.1 he; exact ⟨rfl, rfl, rfl⟩
  · obtain ⟨-, -, rfl⟩ := execRxbData_next.1 he; exact ⟨rfl, rfl, rfl⟩
  · obtain rfl := execRxi_next.1 he
    rcases idleChecked_cases (quiet s) with h | h | h <;> rw [h] <;> exact ⟨rfl, rfl, rfl⟩

/-! ## The ordinary byte -/

/-- An ordinary byte below `CAP` selects RXB.DATA, which appends it. -/
theorem exec_rxbData_of_ordinary {b : Byte} (hw : s.wr < s.cfg.cap) (hb : b ≠ ETX)
    (hn : ¬ (s.wr = 0 ∧ (b = ACK ∨ b = NAK) ∧ s.cfg.soleByteDeferred = false)) :
    exec (.rxbData b) s = .next (appended b (takeRx b (quiet s))) := by
  have hack : ¬ SoleOnArrival s.cfg s.wr ACK b := fun ⟨h0, h, hd⟩ => hn ⟨h0, .inl h, hd⟩
  have hnak : ¬ SoleOnArrival s.cfg s.wr NAK b := fun ⟨h0, h, hd⟩ => hn ⟨h0, .inr h, hd⟩
  refine execRxbData_next.2 ⟨?_, hw, rfl⟩
  simp only [selected, Instr.selectedAt, Bool.and_true, decide_eq_true_eq]
  exact ⟨hw.ne, hb, hack, hnak⟩

/-! ## Where events come from -/

/-- The operations that raise events: an end marker, a sole byte, a receive-idle strobe. -/
def RaisesEvents (i : Instr) : Prop := i = .rxbEtx ∨ i = .rxbAck ∨ i = .rxbNak ∨ i = .rxi

/-- Every other operation raises no event and sets no flag; a send and RST clear the flags. -/
theorem exec_raises_nothing (he : exec i s = .next t) (hi : ¬ RaisesEvents i) :
    t.out.ackEvt = false ∧ t.out.nakEvt = false ∧ t.out.frameEvt = none ∧
    (t.ackFlag = s.ackFlag ∨ t.ackFlag = false) ∧ (t.nakFlag = s.nakFlag ∨ t.nakFlag = false) := by
  cases i with
  | enc p => obtain ⟨-, rfl⟩ := execEnc_next.1 he; exact ⟨rfl, rfl, rfl, .inl rfl, .inl rfl⟩
  | dec r => obtain rfl := execDec_next.1 he; exact ⟨rfl, rfl, rfl, .inl rfl, .inl rfl⟩
  | rxbOvf b => obtain ⟨-, rfl⟩ := execRxbOvf_next.1 he; exact ⟨rfl, rfl, rfl, .inl rfl, .inl rfl⟩
  | rxbData b => obtain ⟨-, -, rfl⟩ := execRxbData_next.1 he; exact ⟨rfl, rfl, rfl, .inl rfl, .inl rfl⟩
  | lsmSend k => obtain ⟨-, p, -, -, rfl⟩ := execLsmSend_next.1 he; exact ⟨rfl, rfl, rfl, .inr rfl, .inr rfl⟩
  | lsmWait k =>
    obtain ⟨-, -, rfl⟩ := execLsmWait_next.1 he
    split_ifs <;> exact ⟨rfl, rfl, rfl, .inl rfl, .inl rfl⟩
  | lsmIdle => obtain ⟨-, rfl⟩ := execLsmIdle_next.1 he; exact ⟨rfl, rfl, rfl, .inl rfl, .inl rfl⟩
  | htx p =>
    obtain ⟨-, rfl⟩ := execHtx_next.1 he
    split_ifs
    · exact ⟨rfl, rfl, rfl, .inr rfl, .inr rfl⟩
    · exact ⟨rfl, rfl, rfl, .inl rfl, .inl rfl⟩
  | rst => obtain rfl := execRst_next.1 he; exact ⟨rfl, rfl, rfl, .inr rfl, .inr rfl⟩
  | rxbEtx | rxbAck | rxbNak | rxi => simp [RaisesEvents] at hi

/-- What RXB.ETX does to the flags and the contact time, told by the events it raised. -/
theorem exec_rxbEtx_effects (he : exec .rxbEtx s = .next t) :
    t.ackFlag = (s.ackFlag || t.out.ackEvt) ∧ t.nakFlag = s.nakFlag ∧
    t.tContact = if t.out.ackEvt = true ∨ t.out.frameEvt.isSome = true then some s.now else s.tContact := by
  obtain ⟨-, rfl⟩ := execRxbEtx_next.1 he
  obtain ⟨-, -, -, -, -, -, -, -, -, -, hnak, -, -, hack, hcontact⟩ :=
    endMarker_frame (appended ETX (takeRx ETX (quiet s)))
  exact ⟨hack rfl, hnak, hcontact rfl rfl⟩

/-- R73: an operation raises the acknowledgement with all its effects, or has no event and does not set the flag. -/
theorem exec_ack_cases (he : exec i s = .next t) :
    (t.out.ackEvt = true ∧ t.ackFlag = true ∧ t.tContact = some s.now ∧
      (i = .rxbEtx ∨ i = .rxbAck ∨ i = .rxi)) ∨
    (t.out.ackEvt = false ∧ (t.ackFlag = s.ackFlag ∨ t.ackFlag = false)) := by
  by_cases hi : RaisesEvents i
  · rcases hi with rfl | rfl | rfl | rfl
    · obtain ⟨hflag, -, hcontact⟩ := exec_rxbEtx_effects he
      cases hevt : t.out.ackEvt with
      | true => exact .inl ⟨rfl, by simp [hflag, hevt], by simp [hcontact, hevt], .inl rfl⟩
      | false => exact .inr ⟨rfl, .inl (by simp [hflag, hevt])⟩
    · obtain ⟨-, rfl⟩ := execRxbAck_next.1 he
      exact .inl ⟨rfl, rfl, rfl, .inr (.inl rfl)⟩
    · obtain ⟨-, rfl⟩ := execRxbNak_next.1 he
      exact .inr ⟨rfl, .inl rfl⟩
    · obtain rfl := execRxi_next.1 he
      rcases idleChecked_cases (quiet s) with h | h | h <;> rw [h]
      · exact .inl ⟨rfl, rfl, rfl, .inr (.inr rfl)⟩
      · exact .inr ⟨rfl, .inl rfl⟩
      · exact .inr ⟨rfl, .inl rfl⟩
  · obtain ⟨hevt, -, -, hflag, -⟩ := exec_raises_nothing he hi
    exact .inr ⟨hevt, hflag⟩

/-- A frame event comes from an end marker only (R77). -/
theorem rxbEtx_of_frameEvt {f : Frame} (he : exec i s = .next t) (hf : t.out.frameEvt = some f) : i = .rxbEtx := by
  by_contra hne
  have hnone : t.out.frameEvt = none := by
    by_cases hi : RaisesEvents i
    · rcases hi with rfl | rfl | rfl | rfl
      · exact absurd rfl hne
      · obtain ⟨-, rfl⟩ := execRxbAck_next.1 he; rfl
      · obtain ⟨-, rfl⟩ := execRxbNak_next.1 he; rfl
      · obtain rfl := execRxi_next.1 he
        rcases idleChecked_cases (quiet s) with h | h | h <;> rw [h] <;> rfl
    · obtain ⟨-, -, hnone, -⟩ := exec_raises_nothing he hi
      exact hnone
  simp [hnone] at hf

/-! ## The length of an emitted body -/

/-- Five bytes of a raw frame are not body: the markers, the two type bytes and the checksum (R58). -/
theorem decodeFrame_body_length {strict : Bool} {r : List Byte} {f : Frame}
    (h : decodeFrame strict r = .accepted f) : f.body.length + 5 = r.length := by
  unfold decodeFrame at h
  split_ifs at h with hlen
  injection h with h
  subst h
  simp only [List.length_take, List.length_drop]
  omega

theorem takeCandidate_body_length {start : Nat} {f : Frame} (hs : s.out.frameEvt = none)
    (hf : (takeCandidate start s).out.frameEvt = some f) : f.body.length + 5 ≤ s.wr := by
  rw [takeCandidate_eq] at hf
  split at hf
  next g hg =>
    obtain rfl : g = f := by simpa [emitFrame] using hf
    rw [decodeFrame_body_length hg, List.length_drop, heldBytes_length]
    exact Nat.sub_le ..
  next => simp [hs] at hf

theorem endMarker_body_length {f : Frame} (hs : s.out.frameEvt = none)
    (hf : (endMarker s).out.frameEvt = some f) : f.body.length + 5 ≤ s.wr := by
  rcases endMarker_cases s with ⟨-, h⟩ | ⟨-, -, h⟩ | ⟨-, -, h⟩ <;> rw [h] at hf
  · exact takeCandidate_body_length (s := raiseAck s) hs hf
  · exact takeCandidate_body_length hs hf
  · simp [hs] at hf

/-! ## What the demultiplexer reads -/

/-- Two states that agree in all the demultiplexer reads, and in all it writes but the two flags (R78). -/
structure SameReception (s t : State) : Prop where
  cfg : s.cfg = t.cfg
  wr : s.wr = t.wr
  acc : s.acc = t.acc
  accEpoch : s.accEpoch = t.accEpoch
  tContact : s.tContact = t.tContact
  now : s.now = t.now
  rx : s.rx = t.rx
  out : s.out = t.out

namespace SameReception

theorem accRead (h : SameReception s t) (i : Nat) : accRead s i = accRead t i :=
  accRead_congr h.acc h.accEpoch i

theorem heldBytes (h : SameReception s t) : heldBytes s = heldBytes t :=
  heldBytes_congr h.wr fun i _ => h.accRead i

theorem ackPrefixed (h : SameReception s t) : AckPrefixed s ↔ AckPrefixed t := by
  simp only [AckPrefixed, h.wr, h.accRead]

theorem takeRx (h : SameReception s t) (b : Byte) : SameReception (takeRx b s) (takeRx b t) :=
  { h with rx := by simp [h.rx] }

theorem appended (h : SameReception s t) (b : Byte) : SameReception (appended b s) (appended b t) :=
  { h with acc := by simp [h.acc, h.wr], wr := by simp [h.wr] }

theorem clearAcc (h : SameReception s t) : SameReception (clearAcc s) (clearAcc t) :=
  { h with wr := rfl }

theorem raiseAck (h : SameReception s t) : SameReception (raiseAck s) (raiseAck t) :=
  { h with tContact := by simp [h.now], out := by simp [h.out] }

theorem raiseNak (h : SameReception s t) : SameReception (raiseNak s) (raiseNak t) :=
  { h with out := by simp [h.out] }

theorem emitFrame (h : SameReception s t) (f : Frame) : SameReception (emitFrame f s) (emitFrame f t) :=
  { h with tContact := by simp [h.now], out := by simp [h.out] }

theorem takeCandidate (h : SameReception s t) (start : Nat) :
    SameReception (takeCandidate start s) (takeCandidate start t) := by
  rw [takeCandidate_eq, takeCandidate_eq, h.cfg, h.heldBytes]
  split
  · exact (h.emitFrame _).clearAcc
  · exact h.clearAcc

theorem endMarker (h : SameReception s t) : SameReception (endMarker s) (endMarker t) := by
  simp only [Machine.endMarker, h.ackPrefixed, h.accRead]
  split_ifs
  · exact h.raiseAck.takeCandidate 1
  · exact h.takeCandidate 0
  · exact h.clearAcc

theorem idleChecked (h : SameReception s t) : SameReception (idleChecked s) (idleChecked t) := by
  simp only [Machine.idleChecked, h.cfg, h.wr, h.accRead]
  split_ifs
  · exact h.raiseAck.clearAcc
  · exact h.raiseNak.clearAcc
  · exact h
  · exact h

end SameReception

/-- An operation of the demultiplexer that completes in one of two such states completes in the other, with the same
events. The old pulses do not matter (R100). -/
theorem exec_sameReception {s' : State} (hi : OfDemux i) (h : SameReception (quiet s) (quiet s'))
    (he : exec i s = .next t) : ∃ u, exec i s' = .next u ∧ SameReception t u := by
  have hcfg : s'.cfg = s.cfg := h.cfg.symm
  have hwr : s'.wr = s.wr := h.wr.symm
  rcases hi with ⟨b, rfl⟩ | rfl | rfl | rfl | ⟨b, rfl⟩ | rfl
  · obtain ⟨hfull, rfl⟩ := execRxbOvf_next.1 he
    exact ⟨_, execRxbOvf_next.2 ⟨by rwa [hcfg, hwr], rfl⟩, (h.takeRx b).clearAcc⟩
  · obtain ⟨hroom, rfl⟩ := execRxbEtx_next.1 he
    exact ⟨_, execRxbEtx_next.2 ⟨by rwa [hcfg, hwr], rfl⟩, ((h.takeRx ETX).appended ETX).endMarker⟩
  · obtain ⟨hsole, rfl⟩ := execRxbAck_next.1 he
    exact ⟨_, execRxbAck_next.2 ⟨by rwa [hcfg, hwr], rfl⟩, ((h.takeRx ACK).appended ACK).raiseAck.clearAcc⟩
  · obtain ⟨hsole, rfl⟩ := execRxbNak_next.1 he
    exact ⟨_, execRxbNak_next.2 ⟨by rwa [hcfg, hwr], rfl⟩, ((h.takeRx NAK).appended NAK).raiseNak.clearAcc⟩
  · obtain ⟨hsel, hroom, rfl⟩ := execRxbData_next.1 he
    have hsel' : selected (.rxbData b) s' = true := by rwa [selected, hcfg, hwr]
    exact ⟨_, execRxbData_next.2 ⟨hsel', by rwa [hcfg, hwr], rfl⟩, (h.takeRx b).appended b⟩
  · obtain rfl := execRxi_next.1 he
    exact ⟨_, execRxi_next.2 rfl, h.idleChecked⟩

end Sys2Proof.Machine

namespace Sys2Proof.Proofs

open Sys2Proof.Machine

/-- Settles O15: the arm leaves the appended state, read back by the rules of the accumulator's cells. -/
theorem dataResult : Obligations.DataResult := by
  intro b s hw hb hn
  exact ⟨_, exec_rxbData_of_ordinary hw hb hn, rfl, accRead_appended_same b (takeRx b (quiet s)),
    fun _ hne => accRead_appended_other (s := takeRx b (quiet s)) hne, rfl⟩

/-- Settles O24: in the case without the event the flag is the old one or cleared, so it is not newly set. -/
theorem ackEventEffects : Obligations.AckEventEffects := by
  intro i s t he
  rcases exec_ack_cases he with ⟨hevt, heffects⟩ | ⟨hevt, hflag⟩
  · exact ⟨fun _ => heffects, fun _ _ => hevt⟩
  · refine ⟨fun h => absurd h (by simp [hevt]), fun ht hs => ?_⟩
    rcases hflag with h | h <;> simp [h, hs] at ht

/-- Settles O25: only an end marker emits, and it hands DEC at most the `CAP` bytes the accumulator holds. -/
theorem frameEventEffects : Obligations.FrameEventEffects := by
  intro i s t f he hf
  obtain rfl := rxbEtx_of_frameEvt he hf
  obtain ⟨hack, hnak, hcontact⟩ := exec_rxbEtx_effects he
  have hbody : f.body.length + 5 ≤ s.cfg.cap := by
    obtain ⟨hroom, rfl⟩ := execRxbEtx_next.1 he
    exact (endMarker_body_length rfl hf).trans hroom
  exact ⟨by simp [hcontact, hf], hbody, hnak, fun hevt => by simp [hack, hevt]⟩

/-- Settles O26: the changed state agrees with the old one in all the demultiplexer reads, and the arms keep that. -/
theorem demultiplexerBlindToPhase : Obligations.DemultiplexerBlindToPhase := by
  intro i s t l ack nak act sent o hi he
  have hdemux : OfDemux i := by
    rcases hi with ⟨b, rfl⟩ | rfl
    · exact decodeRxByte_ofDemux ..
    · simp [OfDemux]
  obtain ⟨u, hu, h⟩ := exec_sameReception (s := s) hdemux
    (s' := { s with link := l, ackFlag := ack, nakFlag := nak, tAction := act, tx := sent, out := o })
    ⟨rfl, rfl, rfl, rfl, rfl, rfl, rfl, rfl⟩ he
  exact ⟨u, hu, h.out.symm, h.wr.symm, h.acc.symm, h.tContact.symm, h.rx.symm, exec_ofDemux_frame hdemux hu⟩

end Sys2Proof.Proofs
end

section
/-! What the arms of LSM do: where WAIT goes, and what a step-check reads and writes (spec/42_link_fsm.md R82, R84,
R85, R89). -/

namespace Sys2Proof.Machine

variable {i : Instr} {s t : State} {k : Nat}

/-! ## The wait state -/

/-- Where `WAIT_k` goes: on at the advance condition, which is tested before the timeout, else back on the timeout
(R82, R83, R84). -/
def waitTarget (k : Nat) (s : State) : LinkState :=
  if Advances k s then nextStep k s else if TimedOut s then .send k else .wait k

theorem waitTarget_of_advances (h : Advances k s) : waitTarget k s = nextStep k s := if_pos h

theorem waitTarget_of_not_advances (h : ¬ Advances k s) :
    waitTarget k s = if TimedOut s then .send k else .wait k := if_neg h

/-- In `WAIT_k`, writing `WAIT_k` to the link state changes nothing. -/
theorem setLink_wait_quiet (h : s.link = .wait k) : setLink (.wait k) (quiet s) = quiet s := by
  rw [← h]
  rfl

/-- LSM.WAIT writes the link state and nothing else. -/
theorem execLsmWait_next_setLink : execLsmWait k s = .next t ↔
    s.link = .wait k ∧ k < s.cfg.nSteps ∧ t = setLink (waitTarget k s) (quiet s) := by
  rw [execLsmWait_next]
  refine and_congr_right fun hl => ?_
  unfold waitTarget
  split_ifs <;> simp only [setLink_wait_quiet hl]

/-- The timeout in exact arithmetic: strictly more than 1000 ms, modulo the width of the counter (R84). -/
theorem timedOut_iff :
    TimedOut s ↔ ((s.now : Int) - (s.tAction : Int)) % (2 : Int) ^ s.cfg.timeW > 1000 := by
  rw [← elapsed_int, TimedOut, T_RETRY]
  omega

/-! ## What a step-check writes -/

/-- The arms of the Link State Machine. -/
def OfLsm (i : Instr) : Prop := (∃ k, i = .lsmSend k) ∨ (∃ k, i = .lsmWait k) ∨ i = .lsmIdle

/-- An arm of LSM transmits a command and waits, or writes at most the link state. -/
theorem exec_ofLsm_cases (hi : OfLsm i) (he : exec i s = .next t) :
    (∃ k p, i = .lsmSend k ∧ t = setLink (.wait k) (transmitted p (quiet s))) ∨
    ((∀ k, i ≠ .lsmSend k) ∧ ∃ l, t = setLink l (quiet s)) := by
  rcases hi with ⟨k, rfl⟩ | ⟨k, rfl⟩ | rfl
  · obtain ⟨-, p, -, -, rfl⟩ := execLsmSend_next.1 he
    exact .inl ⟨k, p, rfl, rfl⟩
  · obtain ⟨-, -, rfl⟩ := execLsmWait_next_setLink.1 he
    exact .inr ⟨nofun, _, rfl⟩
  · obtain ⟨-, rfl⟩ := execLsmIdle_next.1 he
    exact .inr ⟨nofun, s.link, rfl⟩

end Sys2Proof.Machine

namespace Sys2Proof.Proofs

open Sys2Proof.Machine

/-- Settles O30: the flag is an advance condition, and that is tested first. -/
theorem waitAdvancesOnAck : Obligations.WaitAdvancesOnAck := by
  intro s k hl hk hack
  refine execLsmWait_next_setLink.2 ⟨hl, hk, ?_⟩
  rw [waitTarget_of_advances (.inl hack)]
  rfl

/-- Settles O32: without an advance condition the target is decided by the timeout, in exact arithmetic. -/
theorem waitTimesOut : Obligations.WaitTimesOut := by
  intro s k hl hk hack hnak
  have hadv : ¬ Advances k s := by simp [hack, hnak]
  refine execLsmWait_next_setLink.2 ⟨hl, hk, ?_⟩
  simp only [waitTarget_of_not_advances hadv, timedOut_iff]
  rfl

/-- Settles O33: the operations that write the link state are the arms of SEND and WAIT, which IDLE does not
select. -/
theorem idleIsTerminal : Obligations.IdleIsTerminal := by
  intro s hs
  refine ⟨execLsmIdle_next.2 ⟨hs, rfl⟩, fun i t he hr => ?_⟩
  rcases exec_link_cases he hr with hl | ⟨k, -, hl, -⟩ | ⟨k, -, hl, -⟩
  · exact hl.trans hs
  · cases hs.symm.trans hl
  · cases hs.symm.trans hl

/-- Settles O35: what decides an arm and the values it writes are the same in both states; the frame is that of a
transmission or of a write to the link state. -/
theorem stepCheckInputs : Obligations.StepCheckInputs := by
  intro i s t m wr epoch draw contact got sent o next hi he
  refine ⟨?_, ?_⟩
  · rcases hi with ⟨k, rfl⟩ | ⟨k, rfl⟩ | rfl
    · obtain ⟨hl, p, hp, hle, rfl⟩ := execLsmSend_next.1 he
      exact execLsmSend_next.2 ⟨hl, p, hp, hle, rfl⟩
    · obtain ⟨hl, hk, rfl⟩ := execLsmWait_next_setLink.1 he
      refine execLsmWait_next_setLink.2 ⟨hl, hk, ?_⟩
      simp only [setLink_out, quiet_out, List.append_nil]
      rfl
    · obtain ⟨hl, rfl⟩ := execLsmIdle_next.1 he
      refine execLsmIdle_next.2 ⟨hl, ?_⟩
      simp only [quiet_out, List.append_nil]
      rfl
  · rcases exec_ofLsm_cases hi he with ⟨k, p, rfl, rfl⟩ | ⟨hi, l, rfl⟩
    · exact ⟨rfl, rfl, rfl, rfl, rfl, rfl, rfl, rfl, rfl, rfl, rfl, fun h => absurd rfl (h k)⟩
    · exact ⟨rfl, rfl, rfl, rfl, (List.append_nil _).symm, rfl, rfl, rfl, rfl, rfl, rfl,
        fun _ => ⟨rfl, rfl, rfl, rfl⟩⟩

end Sys2Proof.Proofs
end

section
/-! A strobe with an admitted operand is performed, and a step on it answers a next state (spec/60_exceptions.md
R120). -/

namespace Sys2Proof.Machine

theorem PortOp.length_le_of_admitted {c : Config} {op : PortOp} {p : List Byte} (ho : op = .enc p ∨ op = .htx p)
    (ha : op.admitted c = true) : p.length ≤ c.maxPayload := by
  rcases ho with rfl | rfl <;> exact of_decide_eq_true ha

/-- A strobe is performed where the link state exists, the cursor is within `CAP`, and a payload is in the domain. -/
theorem perform_completes {op : PortOp} {s : State} (hw : s.cfg.wf = true) (hc : s.wr ≤ s.cfg.cap)
    (hl : s.link.inRange s.cfg = true) (ha : op.admitted s.cfg = true) : ∃ t, perform op s = .next t := by
  rcases perform_cases op s with ⟨-, hp⟩ | ⟨-, hout, -⟩ | ⟨p, ho, hlong, -⟩ | ⟨i, hp, hsel, hwf⟩
  · exact ⟨_, hp⟩
  · simp [hl] at hout
  · exact absurd (PortOp.length_le_of_admitted ho ha) (Nat.not_le.2 hlong)
  · rw [hp]
    exact exec_completes hw hc hsel hwf

end Sys2Proof.Machine

namespace Sys2Proof.Proofs

open Sys2Proof.Machine

/-- Settles O51: the invariant gives what a strobe needs, and taking a stimulus from the queue leaves that as it
is. -/
theorem noStopOnAdmittedInput : Obligations.NoStopOnAdmittedInput := by
  intro s hinv hadm
  cases hp : s.pending with
  | nil => exact ⟨_, step_nil hinv.params hp⟩
  | cons st rest =>
    have ha : st.op.admitted s.cfg = true := hadm st (by simp [hp])
    rw [step_cons hinv.params hp]
    exact perform_completes (s := present st rest s) hinv.params hinv.cursor hinv.link ha

end Sys2Proof.Proofs
end

section
/-! The decoder and the encoder agree, in both directions (spec/30_encoding.md R42, R45, R46). -/

namespace Sys2Proof.Machine

variable {c : Config} {i : Instr} {k code : Nat}

theorem decodePayload_eq_ok {op : List Byte → Instr} {p : List Byte} :
    decodePayload c op p = .ok i ↔ p.length ≤ c.maxPayload ∧ i = op p := by
  unfold decodePayload
  split_ifs with h <;> simp [h, eq_comm]

/-- The codes of format LSTATE: below `2*N_STEPS` a send state where even and a wait state where odd, and IDLE at
`2*N_STEPS`. -/
theorem decodeLState_eq_ok : decodeLState c code = .ok i ↔
    (∃ k, k < c.nSteps ∧ code = 2 * k ∧ i = .lsmSend k) ∨
    (∃ k, k < c.nSteps ∧ code = 2 * k + 1 ∧ i = .lsmWait k) ∨
    (code = 2 * c.nSteps ∧ i = .lsmIdle) := by
  unfold decodeLState
  constructor
  · intro h
    split_ifs at h with hout hidle heven <;> cases h
    · exact .inr (.inr ⟨hidle, rfl⟩)
    · exact .inl ⟨code / 2, by omega, by omega, rfl⟩
    · exact .inr (.inl ⟨code / 2, by omega, by omega, rfl⟩)
  · rintro (⟨k, hk, rfl, rfl⟩ | ⟨k, hk, rfl, rfl⟩ | ⟨rfl, rfl⟩)
    · rw [if_neg (by omega), if_neg (by omega), if_pos (by omega), Nat.mul_div_cancel_left k two_pos]
    · rw [if_neg (by omega), if_neg (by omega), if_neg (by omega), show (2 * k + 1) / 2 = k by omega]
    · simp

/-- The classification of a byte gives an arm whose encoding is that byte. -/
theorem encode_decodeRxByte (c : Config) (wr : Nat) (b : Byte) : encode c (decodeRxByte c wr b) = .rxByte b := by
  unfold decodeRxByte
  split_ifs with hfull hetx hack hnak
  · rfl
  · rw [hetx, encode]
  · rw [hack.2.1, encode]
  · rw [hnak.2.1, encode]
  · rfl

/-- A state selects an operation only at a cursor that does. -/
theorem selectedAt_of_selected {s : State} (h : selected i s = true) : i.selectedAt s.cfg s.wr = true :=
  (Bool.and_eq_true_iff.1 h).1

end Sys2Proof.Machine

namespace Sys2Proof.Proofs

open Sys2Proof.Machine

/-- Settles O11: for an arm of RXB the selection excludes the earlier classes of R46, for the others the domain is
what the decoder asks. -/
theorem decodeOfEncode : Obligations.DecodeOfEncode := by
  intro c wr i hwf hsel
  cases i with
  | enc p => exact decodePayload_eq_ok.2 ⟨of_decide_eq_true hwf, rfl⟩
  | htx p => exact decodePayload_eq_ok.2 ⟨of_decide_eq_true hwf, rfl⟩
  | dec | rxi | rst => rfl
  | rxbOvf b =>
    have hfull : wr = c.cap := of_decide_eq_true hsel
    simp [encode, decode, decodeRxByte, hfull]
  | rxbEtx =>
    have hroom : wr ≠ c.cap := of_decide_eq_true hsel
    simp [encode, decode, decodeRxByte, hroom]
  | rxbAck =>
    obtain ⟨hroom, hsole⟩ := of_decide_eq_true hsel
    simp only [encode, decode, decodeRxByte, if_neg hroom, if_neg (show ACK ≠ ETX by decide), if_pos hsole]
  | rxbNak =>
    obtain ⟨hroom, hsole⟩ := of_decide_eq_true hsel
    have hack : ¬ SoleOnArrival c wr ACK NAK := fun h => absurd h.2.1 (by decide)
    simp only [encode, decode, decodeRxByte, if_neg hroom, if_neg (show NAK ≠ ETX by decide), if_neg hack,
      if_pos hsole]
  | rxbData b =>
    obtain ⟨hroom, hetx, hack, hnak⟩ := of_decide_eq_true hsel
    simp only [encode, decode, decodeRxByte, if_neg hroom, if_neg hetx, if_neg hack, if_neg hnak]
  | lsmSend k => exact decodeLState_eq_ok.2 (.inl ⟨k, of_decide_eq_true hwf, rfl, rfl⟩)
  | lsmWait k => exact decodeLState_eq_ok.2 (.inr (.inl ⟨k, of_decide_eq_true hwf, rfl, rfl⟩))
  | lsmIdle => exact decodeLState_eq_ok.2 (.inr (.inr ⟨rfl, rfl⟩))

/-- Settles O12: each port's decoder answers operations of that port only, in their domain, and a byte is classified
as an arm that the cursor selects. -/
theorem encodeOfDecode : Obligations.EncodeOfDecode := by
  intro c wr w i hd
  cases w with
  | encCall p =>
    obtain ⟨hp, rfl⟩ := decodePayload_eq_ok.1 hd
    exact ⟨rfl, decide_eq_true hp, rfl⟩
  | hostTx p =>
    obtain ⟨hp, rfl⟩ := decodePayload_eq_ok.1 hd
    exact ⟨rfl, decide_eq_true hp, rfl⟩
  | decCall | rxIdle | reset => cases hd; exact ⟨rfl, rfl, rfl⟩
  | rxByte b =>
    cases hd
    obtain ⟨hsel, hwf⟩ := decodeRxByte_selected b { State.resetWith c with wr := wr }
    exact ⟨encode_decodeRxByte c wr b, hwf, selectedAt_of_selected hsel⟩
  | lsmStep code =>
    rcases decodeLState_eq_ok.1 hd with ⟨k, hk, rfl, rfl⟩ | ⟨k, hk, rfl, rfl⟩ | ⟨rfl, rfl⟩
    · exact ⟨rfl, decide_eq_true hk, rfl⟩
    · exact ⟨rfl, decide_eq_true hk, rfl⟩
    · exact ⟨rfl, rfl, rfl⟩

/-- Settles O13, by evaluating the decoder on the words. -/
theorem tableWordsDecode : Obligations.TableWordsDecode := by
  unfold Obligations.TableWordsDecode
  decide

end Sys2Proof.Proofs
end

section
/-! Every operation keeps the invariant (spec/10_state.md R12, R13, R14, spec/20_memory.md R25, spec/41_rx_demux.md
R76), and no step writes the parameters. -/

namespace Sys2Proof.Machine

variable {i : Instr} {s t : State}

theorem Config.nSteps_pos {c : Config} (h : c.wf = true) : 0 < c.nSteps := by
  simp only [Config.wf, Bool.and_eq_true, decide_eq_true_eq] at h
  exact h.1.1.1.2

theorem Config.five_le_cap {c : Config} (h : c.wf = true) : 5 ≤ c.cap := by
  simp only [Config.wf, Bool.and_eq_true, decide_eq_true_eq] at h
  exact h.1.1.1.1

/-- What the `now` port carries has `TIME_W` bits (R6). -/
theorem Config.time_lt (c : Config) (n : Nat) : c.time n < 2 ^ c.timeW := Nat.mod_lt _ (by positivity)

namespace Inv

theorem quiet (h : Inv s) : Inv (quiet s) := { h with }

theorem noOperation (h : Inv s) : Inv (noOperation s) := { h with }

theorem present (h : Inv s) (st : Stimulus) (rest : List Stimulus) : Inv (present st rest s) :=
  { h with clock := Config.time_lt s.cfg st.now }

theorem takeRx (h : Inv s) (b : Byte) : Inv (takeRx b s) := { h with }

theorem raiseAck (h : Inv s) : Inv (raiseAck s) :=
  { h with contact := fun _ ht => Option.some.inj ht ▸ h.clock }

theorem raiseNak (h : Inv s) : Inv (raiseNak s) := { h with }

theorem emitFrame (h : Inv s) (f : Frame) : Inv (emitFrame f s) :=
  { h with contact := fun _ ht => Option.some.inj ht ▸ h.clock }

theorem transmitted (h : Inv s) (p : List Byte) : Inv (transmitted p s) := { h with action := h.clock }

theorem setLink (h : Inv s) {l : LinkState} (hl : l.inRange s.cfg = true) : Inv (setLink l s) :=
  { h with link := hl }

/-- With the cursor at 0 the accumulator holds nothing that the invariant could forbid. -/
theorem of_empty (hwr : s.wr = 0) (params : s.cfg.wf = true) (link : s.link.inRange s.cfg = true)
    (memory : Memory.wf s.acc = true) (cells : ∀ c ∈ s.acc, c.1 < s.cfg.cap)
    (action : s.tAction < 2 ^ s.cfg.timeW) (contact : ∀ t, s.tContact = some t → t < 2 ^ s.cfg.timeW)
    (clock : s.now < 2 ^ s.cfg.timeW) : Inv s where
  params := params
  cursor := hwr.trans_le (Nat.zero_le _)
  link := link
  memory := memory
  cells := cells
  written := fun i hi => absurd hi (by simp [hwr])
  noEtx := fun i hi => absurd hi (by simp [hwr])
  firstByte := fun _ hi => absurd hi (by simp [hwr])
  action := action
  contact := contact
  clock := clock

theorem clearAcc (h : Inv s) : Inv (clearAcc s) :=
  of_empty rfl h.params h.link h.memory h.cells h.action h.contact h.clock

/-- An append below `CAP` keeps the canonical form of the cells and lists none beyond; what is held afterwards does not
matter where the accumulator is reset in the same operation. -/
theorem clearAcc_appended (h : Inv s) (hroom : s.wr < s.cfg.cap) (b : Byte) :
    Inv (Machine.clearAcc (appended b s)) := by
  have hcells : ∀ c ∈ Memory.write s.acc s.wr b, c.1 < s.cfg.cap := fun c hc => by
    rcases Memory.mem_write _ _ _ c hc with rfl | hc
    · exact hroom
    · exact h.cells c hc
  exact of_empty rfl h.params h.link (Memory.wf_write _ _ _ h.memory) hcells h.action h.contact h.clock

/-- An append of an ordinary byte (R67, R76). -/
theorem appended (h : Inv s) (hroom : s.wr < s.cfg.cap) {b : Byte} (hb : b ≠ ETX)
    (hfirst : s.cfg.soleByteDeferred = false → s.wr = 0 → b ≠ ACK ∧ b ≠ NAK) : Inv (appended b s) :=
  { h.clearAcc_appended hroom b with
    cursor := hroom
    written := fun i hi => by
      rcases Nat.lt_succ_iff_lt_or_eq.1 hi with hi | rfl
      · rw [appended_acc, Memory.read_write_other _ _ _ _ hi.ne]
        exact h.written i hi
      · simp [Memory.read_write_same]
    noEtx := fun i hi => by
      rcases Nat.lt_succ_iff_lt_or_eq.1 hi with hi | rfl
      · rw [accRead_appended_other hi.ne]
        exact h.noEtx i hi
      · rwa [accRead_appended_same]
    firstByte := fun hd _ => by
      rcases Nat.eq_zero_or_pos s.wr with h0 | hpos
      · rw [← h0, accRead_appended_same]
        exact hfirst hd h0
      · rw [accRead_appended_other hpos.ne]
        exact h.firstByte hd hpos }

/-- The end marker resets the accumulator whatever the candidate (R68). -/
theorem takeCandidate (h : Inv (Machine.clearAcc s)) (start : Nat) : Inv (takeCandidate start s) := by
  rw [takeCandidate_eq]
  split
  · exact h.emitFrame _
  · exact h

theorem endMarker (h : Inv (Machine.clearAcc s)) : Inv (endMarker s) := by
  rcases endMarker_cases s with ⟨-, he⟩ | ⟨-, -, he⟩ | ⟨-, -, he⟩ <;> rw [he]
  · exact takeCandidate (s := Machine.raiseAck s) h.raiseAck 1
  · exact takeCandidate h 0
  · exact h

/-- RST leaves the first send state, which R5 says exists, and an empty accumulator. -/
theorem execRst (h : Inv s) (he : execRst s = .next t) : Inv t := by
  obtain rfl := execRst_next.1 he
  exact of_empty rfl h.params (decide_eq_true (Config.nSteps_pos h.params)) Memory.wf_nil nofun
    (Config.time_lt s.cfg _) nofun h.clock

end Inv

/-- The selection of RXB.DATA excludes the bytes that the other arms take (R46). -/
theorem ordinary_of_selected {b : Byte} (h : selected (.rxbData b) s = true) :
    b ≠ ETX ∧ (s.cfg.soleByteDeferred = false → s.wr = 0 → b ≠ ACK ∧ b ≠ NAK) := by
  obtain ⟨-, hetx, hack, hnak⟩ := of_decide_eq_true (selectedAt_of_selected h)
  exact ⟨hetx, fun hd h0 => ⟨fun hb => hack ⟨h0, hb, hd⟩, fun hb => hnak ⟨h0, hb, hd⟩⟩⟩

/-- Every operation keeps the invariant. -/
theorem exec_keeps_inv (h : Inv s) (he : exec i s = .next t) : Inv t := by
  have hq := h.quiet
  cases i with
  | enc p => obtain ⟨-, rfl⟩ := execEnc_next.1 he; exact { h with }
  | dec r => obtain rfl := execDec_next.1 he; exact { h with }
  | rxbOvf b => obtain ⟨-, rfl⟩ := execRxbOvf_next.1 he; exact (hq.takeRx b).clearAcc
  | rxbEtx =>
    obtain ⟨hroom, rfl⟩ := execRxbEtx_next.1 he
    exact ((hq.takeRx ETX).clearAcc_appended hroom ETX).endMarker
  | rxbAck =>
    obtain ⟨⟨h0, hcap, -⟩, rfl⟩ := execRxbAck_next.1 he
    exact ((hq.takeRx ACK).clearAcc_appended (h0.trans_lt hcap) ACK).raiseAck
  | rxbNak =>
    obtain ⟨⟨h0, hcap, -⟩, rfl⟩ := execRxbNak_next.1 he
    exact ((hq.takeRx NAK).clearAcc_appended (h0.trans_lt hcap) NAK).raiseNak
  | rxbData b =>
    obtain ⟨hsel, hroom, rfl⟩ := execRxbData_next.1 he
    obtain ⟨hetx, hfirst⟩ := ordinary_of_selected hsel
    exact (hq.takeRx b).appended hroom hetx hfirst
  | rxi =>
    obtain rfl := execRxi_next.1 he
    rcases idleChecked_cases (quiet s) with hi | hi | hi <;> rw [hi]
    · exact hq.raiseAck.clearAcc
    · exact hq.raiseNak.clearAcc
    · exact hq
  | lsmSend k =>
    have hlink := exec_keeps_link_inRange he nofun h.link
    obtain ⟨-, p, -, -, rfl⟩ := execLsmSend_next.1 he
    exact (hq.transmitted p).setLink hlink
  | lsmWait k =>
    have hlink := exec_keeps_link_inRange he nofun h.link
    obtain ⟨-, -, rfl⟩ := execLsmWait_next_setLink.1 he
    exact hq.setLink hlink
  | lsmIdle => obtain ⟨-, rfl⟩ := execLsmIdle_next.1 he; exact hq
  | htx p =>
    obtain ⟨-, rfl⟩ := execHtx_next.1 he
    split_ifs
    · exact hq.transmitted p
    · exact { hq with }
  | rst => exact h.execRst he

end Sys2Proof.Machine

namespace Sys2Proof.Proofs

open Sys2Proof.Machine

/-- Settles O50: the stimulus taken from the queue leaves the invariant, and the operation it selects keeps it. -/
theorem stepKeepsInvariant : Obligations.StepKeepsInvariant := by
  intro s t hinv hs
  obtain ⟨-, ⟨-, rfl⟩ | ⟨st, rest, -, ⟨-, rfl⟩ | ⟨i, he, -, -⟩⟩⟩ := step_next_cases hs
  · exact hinv.noOperation
  · exact (hinv.present st rest).quiet
  · exact exec_keeps_inv (hinv.present st rest) he

/-- Settles O53: neither the ports' taking of a stimulus nor an operation writes the parameters. -/
theorem parametersNeverWritten : Obligations.ParametersNeverWritten := by
  intro s t hs
  obtain ⟨-, ⟨-, rfl⟩ | ⟨st, rest, -, ⟨-, rfl⟩ | ⟨i, he, -, -⟩⟩⟩ := step_next_cases hs
  · rfl
  · rfl
  · obtain ⟨hcfg, -⟩ := exec_keeps he
    exact hcfg

/-- Settles O46: the values are those of the definition; the accumulator is empty and the first step exists. -/
theorem resetState : Obligations.ResetState := by
  intro c
  refine ⟨rfl, rfl, rfl, rfl, rfl, rfl, fun hwf => ?_⟩
  have hpos : 0 < 2 ^ c.timeW := by positivity
  exact .of_empty rfl hwf (decide_eq_true (Config.nSteps_pos hwf)) Memory.wf_nil nofun hpos nofun hpos

end Sys2Proof.Proofs
end

section
/-! What the spec leaves unspecified at reset is never read: the relation of two states that differ in these alone is
kept by every operation (spec/70_reset_and_hazards.md R142). -/

namespace Sys2Proof.Machine

variable {i : Instr} {s t s' : State}

namespace SameButUnspecified

theorem quiet (h : SameButUnspecified s t) : SameButUnspecified (quiet s) (quiet t) := { h with out := rfl }

theorem setOut (h : SameButUnspecified s t) (o : Outputs) :
    SameButUnspecified { s with out := o } { t with out := o } := { h with out := rfl }

theorem noOperation (h : SameButUnspecified s t) : SameButUnspecified (noOperation s) (noOperation t) :=
  { h with out := rfl, draws := by simp [h.draws] }

theorem present (h : SameButUnspecified s t) (st : Stimulus) (rest : List Stimulus) :
    SameButUnspecified (present st rest s) (present st rest t) :=
  { h with now := by simp [h.cfg], pending := rfl, draws := by simp [h.draws] }

theorem takeRx (h : SameButUnspecified s t) (b : Byte) : SameButUnspecified (takeRx b s) (takeRx b t) :=
  { h with rx := by simp [h.rx] }

theorem clearAcc (h : SameButUnspecified s t) : SameButUnspecified (clearAcc s) (clearAcc t) :=
  { h with wr := rfl, cells := nofun }

theorem raiseAck (h : SameButUnspecified s t) : SameButUnspecified (raiseAck s) (raiseAck t) :=
  { h with ack := rfl, contact := by simp [h.now], out := by simp [h.out] }

theorem raiseNak (h : SameButUnspecified s t) : SameButUnspecified (raiseNak s) (raiseNak t) :=
  { h with nak := rfl, out := by simp [h.out] }

theorem emitFrame (h : SameButUnspecified s t) (f : Frame) :
    SameButUnspecified (emitFrame f s) (emitFrame f t) :=
  { h with contact := by simp [h.now], out := by simp [h.out] }

/-- A transmission stamps the action timestamp, so that it agrees from then on. -/
theorem transmitted (h : SameButUnspecified s t) (p : List Byte) :
    SameButUnspecified (transmitted p s) (transmitted p t) :=
  { h with action := fun _ _ => h.now, ack := rfl, nak := rfl, tx := congrArg (· ++ encodeFrame p) h.tx,
           out := congrArg (fun o : Outputs => { o with tx := encodeFrame p }) h.out }

/-- A wait state may be entered where the action timestamps agree. -/
theorem setLink (h : SameButUnspecified s t) {l : LinkState} (ha : s.tAction = t.tAction) :
    SameButUnspecified (setLink l s) (setLink l t) :=
  { h with link := rfl, action := fun _ _ => ha }

/-- The cell that an append brings below the cursor is the one it writes. -/
theorem appended (h : SameButUnspecified s t) (b : Byte) :
    SameButUnspecified (appended b s) (appended b t) :=
  { h with
    wr := by simp [h.wr]
    cells := fun i hi => by
      rcases Nat.lt_succ_iff_lt_or_eq.1 hi with hi | rfl
      · rw [accRead_appended_other hi.ne, accRead_appended_other (h.wr ▸ hi.ne)]
        exact h.cells i hi
      · rw [accRead_appended_same, h.wr, accRead_appended_same] }

theorem heldBytes (h : SameButUnspecified s t) : heldBytes s = heldBytes t := heldBytes_congr h.wr h.cells

theorem ackPrefixed (h : SameButUnspecified s t) : AckPrefixed s ↔ AckPrefixed t := by
  simp only [AckPrefixed, ← h.wr]
  exact and_congr_right fun hw => by rw [h.cells 0 (by omega), h.cells 1 (by omega)]

theorem takeCandidate (h : SameButUnspecified s t) (start : Nat) :
    SameButUnspecified (takeCandidate start s) (takeCandidate start t) := by
  rw [takeCandidate_eq, takeCandidate_eq, h.cfg, h.heldBytes]
  split
  · exact (h.emitFrame _).clearAcc
  · exact h.clearAcc

/-- The end marker has been appended, so cell 0 is below the cursor. -/
theorem endMarker (h : SameButUnspecified s t) (hw : 0 < s.wr) :
    SameButUnspecified (endMarker s) (endMarker t) := by
  simp only [Machine.endMarker, h.ackPrefixed, h.cells 0 hw]
  split_ifs
  · exact h.raiseAck.takeCandidate 1
  · exact h.takeCandidate 0
  · exact h.clearAcc

/-- RXI reads cell 0 only where it is the one byte held. -/
theorem idleChecked (h : SameButUnspecified s t) : SameButUnspecified (idleChecked s) (idleChecked t) := by
  simp only [Machine.idleChecked, ← h.cfg, ← h.wr]
  by_cases hsole : s.cfg.soleByteDeferred = true ∧ s.wr = 1
  · rw [if_pos hsole, if_pos hsole, h.cells 0 (by omega)]
    split_ifs
    · exact h.raiseAck.clearAcc
    · exact h.raiseNak.clearAcc
    · exact h
  · rw [if_neg hsole, if_neg hsole]
    exact h

theorem connectedLevel_eq (h : SameButUnspecified s t) : connectedLevel s = connectedLevel t := by
  simp only [connectedLevel, h.contact, h.cfg, h.now, h.draws]

end SameButUnspecified

/-- An operation that completes in one of two such states completes in the other, and they stay such. -/
theorem exec_sameButUnspecified (h : SameButUnspecified s t) (he : exec i s = .next s') :
    ∃ t', exec i t = .next t' ∧ SameButUnspecified s' t' := by
  have hq := h.quiet
  cases i with
  | enc p =>
    obtain ⟨hp, rfl⟩ := execEnc_next.1 he
    exact ⟨_, execEnc_next.2 ⟨h.cfg ▸ hp, rfl⟩, h.setOut _⟩
  | dec r =>
    obtain rfl := execDec_next.1 he
    exact ⟨_, execDec_next.2 rfl, { h with out := by simp [h.cfg] }⟩
  | rxbOvf b =>
    obtain ⟨hfull, rfl⟩ := execRxbOvf_next.1 he
    exact ⟨_, execRxbOvf_next.2 ⟨by rwa [← h.cfg, ← h.wr], rfl⟩, (hq.takeRx b).clearAcc⟩
  | rxbEtx =>
    obtain ⟨hroom, rfl⟩ := execRxbEtx_next.1 he
    exact ⟨_, execRxbEtx_next.2 ⟨by rwa [← h.cfg, ← h.wr], rfl⟩,
      ((hq.takeRx ETX).appended ETX).endMarker (Nat.succ_pos _)⟩
  | rxbAck =>
    obtain ⟨hsole, rfl⟩ := execRxbAck_next.1 he
    exact ⟨_, execRxbAck_next.2 ⟨by rwa [← h.cfg, ← h.wr], rfl⟩, ((hq.takeRx ACK).appended ACK).raiseAck.clearAcc⟩
  | rxbNak =>
    obtain ⟨hsole, rfl⟩ := execRxbNak_next.1 he
    exact ⟨_, execRxbNak_next.2 ⟨by rwa [← h.cfg, ← h.wr], rfl⟩, ((hq.takeRx NAK).appended NAK).raiseNak.clearAcc⟩
  | rxbData b =>
    obtain ⟨hsel, hroom, rfl⟩ := execRxbData_next.1 he
    have hsel' : selected (.rxbData b) t = true := by rwa [selected, ← h.cfg, ← h.wr]
    exact ⟨_, execRxbData_next.2 ⟨hsel', by rwa [← h.cfg, ← h.wr], rfl⟩, (hq.takeRx b).appended b⟩
  | rxi =>
    obtain rfl := execRxi_next.1 he
    exact ⟨_, execRxi_next.2 rfl, hq.idleChecked⟩
  | lsmSend k =>
    obtain ⟨hl, p, hp, hle, rfl⟩ := execLsmSend_next.1 he
    exact ⟨_, execLsmSend_next.2 ⟨h.link ▸ hl, p, h.cfg ▸ hp, h.cfg ▸ hle, rfl⟩,
      (hq.transmitted p).setLink h.now⟩
  | lsmWait k =>
    obtain ⟨hl, hk, rfl⟩ := execLsmWait_next_setLink.1 he
    have ha := h.action k hl
    have htarget : waitTarget k s = waitTarget k t := by
      simp only [waitTarget, Advances, TimedOut, nextStep, h.cfg, h.ack, h.nak, h.now, ha]
    rw [htarget]
    exact ⟨_, execLsmWait_next_setLink.2 ⟨h.link ▸ hl, h.cfg ▸ hk, rfl⟩, hq.setLink ha⟩
  | lsmIdle =>
    obtain ⟨hl, rfl⟩ := execLsmIdle_next.1 he
    exact ⟨_, execLsmIdle_next.2 ⟨h.link ▸ hl, rfl⟩, hq⟩
  | htx p =>
    obtain ⟨hp, rfl⟩ := execHtx_next.1 he
    refine ⟨_, execHtx_next.2 ⟨h.cfg ▸ hp, rfl⟩, ?_⟩
    rw [← h.link]
    split_ifs
    · exact hq.transmitted p
    · exact h.setOut _
  | rst =>
    obtain rfl := execRst_next.1 he
    exact ⟨_, execRst_next.2 rfl,
      { h.clearAcc with
        link := rfl, action := nofun, contact := rfl, ack := rfl, nak := rfl, cells := nofun, out := rfl }⟩

/-- Which operation a strobe selects is decided by the parameters, the link state and the cursor (R45, R46). -/
theorem perform_congr (op : PortOp) (hcfg : s.cfg = t.cfg) (hlink : s.link = t.link) (hwr : s.wr = t.wr) :
    (perform op s = .next (quiet s) ∧ perform op t = .next (quiet t)) ∨
    (∃ i, perform op s = exec i s ∧ perform op t = exec i t) ∨
    (∀ s', perform op s ≠ .next s') := by
  have hword : portWord t op = portWord s op := by cases op <;> simp only [portWord, hlink, hcfg]
  simp only [perform, hword, ← hcfg, ← hlink, ← hwr]
  cases portWord s op with
  | none => exact .inl ⟨rfl, rfl⟩
  | some w =>
    dsimp only
    split_ifs
    · exact .inr (.inr fun _ h => nomatch h)
    · cases decode s.cfg s.wr w with
      | ok i => exact .inr (.inl ⟨i, rfl, rfl⟩)
      | rejected e => cases e <;> exact .inr (.inr fun _ h => nomatch h)

theorem perform_sameButUnspecified {op : PortOp} (h : SameButUnspecified s t) (hp : perform op s = .next s') :
    ∃ t', perform op t = .next t' ∧ SameButUnspecified s' t' := by
  rcases perform_congr op h.cfg h.link h.wr with ⟨hs, ht⟩ | ⟨i, hs, ht⟩ | hstop
  · cases hs.symm.trans hp
    exact ⟨_, ht, h.quiet⟩
  · rw [ht]
    exact exec_sameButUnspecified h (hs.symm.trans hp)
  · exact absurd hp (hstop s')

theorem step_sameButUnspecified (h : SameButUnspecified s t) (hs : step s = .next s') :
    ∃ t', step t = .next t' ∧ SameButUnspecified s' t' := by
  obtain ⟨hw, -⟩ := step_next_cases hs
  have hw' : t.cfg.wf = true := h.cfg ▸ hw
  cases hp : s.pending with
  | nil =>
    cases (step_nil hw hp).symm.trans hs
    exact ⟨_, step_nil hw' (h.pending ▸ hp), h.noOperation⟩
  | cons st rest =>
    rw [step_cons hw hp] at hs
    rw [step_cons hw' (h.pending ▸ hp)]
    exact perform_sameButUnspecified (h.present st rest) hs

end Sys2Proof.Machine

namespace Sys2Proof.Proofs

open Sys2Proof.Machine

/-- Settles O54: a step keeps the relation, in which the level agrees. -/
theorem unspecifiedNeverRead : Obligations.UnspecifiedNeverRead := by
  intro s t s' h hs
  obtain ⟨t', ht, h'⟩ := step_sameButUnspecified h hs
  exact ⟨t', ht, h', h'.connectedLevel_eq⟩

end Sys2Proof.Proofs
end

section
/-! The checksum, the frames that ENC makes and DEC takes, and the format FRAME (spec/40_frame_codec.md,
spec/30_encoding.md R40, R43). -/

namespace Sys2Proof.Machine

variable {s : State} {p r : List Byte}

/-! ## The checksum -/

theorem sum8_perm {q : List Byte} (h : p.Perm q) : sum8 p = sum8 q :=
  BitVec.eq_of_toNat_eq (by rw [sum8_toNat, sum8_toNat, (h.map _).sum_eq])

theorem cks_eq_esc_iff : cks p = ESC ↔ sum8 p = ETX ∨ sum8 p = ESC := by
  unfold cks
  split_ifs with h <;> simp [h]

/-! ## The frame of a payload -/

theorem encodeFrame_length (p : List Byte) : (encodeFrame p).length = p.length + 3 := by simp [encodeFrame]

/-- Where the end marker stands behind the start marker: at the end of the frame, or in the payload. -/
theorem encodeFrame_tail_eq_etx (p : List Byte) (j : Nat) :
    (p ++ [cks p, ETX])[j]? = some ETX ↔ j = p.length + 1 ∨ (j < p.length ∧ p[j]? = some ETX) := by
  rcases lt_trichotomy j p.length with h | rfl | h
  · rw [List.getElem?_append_left h]
    exact ⟨fun hp => .inr ⟨h, hp⟩, fun hp => hp.elim (fun he => by omega) And.right⟩
  · simp [cks_ne_etx]
  · obtain ⟨d, rfl⟩ : ∃ d, j = p.length + (d + 1) := ⟨j - p.length - 1, by omega⟩
    cases d <;> simp

theorem framePayload_encodeFrame (p : List Byte) : framePayload (encodeFrame p) = p := by
  rw [framePayload, encodeFrame_length, Nat.add_sub_cancel, encodeFrame, List.drop_succ_cons, List.drop_zero,
    List.take_left' rfl]

/-- Format FRAME is the shape of the frame of the sequence's own payload (R40). -/
theorem frameFields_eq (r : List Byte) :
    frameFields r = if r = encodeFrame (framePayload r) then some (framePayload r) else none := rfl

/-! ## What DEC answers -/

theorem decodeFrame_rejects (strict : Bool) (h : r.length < 5 ∨ r.head? ≠ some STX) :
    decodeFrame strict r = .rejected := by
  rcases h with hlen | hhead
  · rw [decodeFrame, if_pos hlen]
  · have hfirst : r.getD 0 0#8 ≠ STX := by
      cases r with
      | nil => decide
      | cons b r => simpa using hhead
    rw [decodeFrame, if_pos hfirst, ite_self]

theorem decodeFrame_encodeFrame (strict : Bool) (a b : Byte) (body : List Byte) :
    decodeFrame strict (encodeFrame (a :: b :: body)) = .accepted ⟨a, b, body⟩ := by
  rw [encodeFrame_cons, decodeFrame_of_shape, if_neg (by simp)]

/-! ## Payloads outside the domain (R57) -/

theorem exec_enc_of_gt (h : s.cfg.maxPayload < p.length) : exec (.enc p) s = .refused .payloadTooLong := by
  rw [exec, execEnc, whenSelected_of rfl, quiet_cfg, if_neg (Nat.not_le.2 h)]

theorem exec_htx_of_gt (h : s.cfg.maxPayload < p.length) : exec (.htx p) s = .refused .payloadTooLong := by
  rw [exec, execHtx, whenSelected_of rfl, quiet_cfg, if_neg (Nat.not_le.2 h)]

end Sys2Proof.Machine

namespace Sys2Proof.Proofs

open Sys2Proof.Machine

/-- Settles O2: the test of the payload's length comes before the link state in both operations. -/
theorem payloadOutsideDomainRefused : Obligations.PayloadOutsideDomainRefused :=
  fun _ _ h => ⟨exec_enc_of_gt h, exec_htx_of_gt h⟩

/-- Settles O3: the sum as a natural number, and the escape of `ETX`. -/
theorem checksumField : Obligations.ChecksumField :=
  fun p => ⟨rfl, sum8_toNat p, cks_ne_etx p, cks_eq_esc_iff⟩

/-- Settles O4: the sum of natural numbers does not depend on their order, and `cks` reads the sum only. -/
theorem checksumOrderIndependent : Obligations.ChecksumOrderIndependent := by
  intro p q h
  have hsum := sum8_perm h
  exact ⟨hsum, by rw [cks, cks, hsum]⟩

/-- Settles O5: the two tests that reject, and the shape that the default option accepts. -/
theorem decodeResult : Obligations.DecodeResult := by
  intro r s
  refine ⟨fun h => ?_, fun a b k e body hr hs => ?_⟩
  · rw [← decodeFrame_rejects s.cfg.strictChecksum h]
    exact execDec_next.2 rfl
  · rw [hr]
    exact exec_dec_accepts hs a b k e body

/-- Settles O7: under the strict option the answer on a decodable shape is decided by the checksum byte. -/
theorem strictChecksumTest : Obligations.StrictChecksumTest := by
  intro a b k e body s hs
  refine execDec_next.2 ?_
  rw [hs, show [0x02#8, a, b] = [STX, a, b] from rfl, decodeFrame_of_shape]
  by_cases hk : k = cks ([a, b] ++ body) <;> simp [hk]

/-- Settles O8: ENC writes the checksum that the strict option asks for; below two bytes the frame is below five. -/
theorem codecRoundTrip : Obligations.CodecRoundTrip := by
  intro strict p
  refine ⟨fun a b body hp => hp ▸ decodeFrame_encodeFrame strict a b body, fun hp => ?_⟩
  exact decodeFrame_rejects strict (.inl (by rw [encodeFrame_length]; omega))

/-- Settles O9: the start marker is no end marker, and behind it the offsets are those of the payload, the checksum
and the end marker. -/
theorem endMarkerPlaces : Obligations.EndMarkerPlaces := by
  intro p i
  refine ⟨encodeFrame_length p, ?_⟩
  cases i with
  | zero => simp [encodeFrame, STX]
  | succ j =>
    rw [encodeFrame, List.getElem?_cons_succ]
    refine (encodeFrame_tail_eq_etx p j).trans ?_
    simp [ETX]

/-- Settles O10: the recogniser compares the sequence with the frame of its payload, which is the payload of that
frame. -/
theorem frameFormatRoundTrip : Obligations.FrameFormatRoundTrip := by
  intro r p
  rw [frameFields_eq]
  constructor
  · intro h
    split_ifs at h with hr
    exact Option.some.inj h ▸ hr
  · rintro rfl
    rw [framePayload_encodeFrame, if_pos rfl]

end Sys2Proof.Proofs
end

section
/-! Elapsed time as the difference of two counts (spec/00_scope.md R6, spec/43_host_port.md R99). -/

namespace Sys2Proof.Machine

/-- Between two counts in order the elapsed time is their difference modulo the counter's width. -/
theorem elapsed_time (c : Config) {t0 t1 : Nat} (h : t0 ≤ t1) :
    elapsed c (c.time t1) (c.time t0) = (t1 - t0) % 2 ^ c.timeW := by
  zify [h]
  rw [elapsed_int, Config.time, Config.time, Int.natCast_mod, Int.natCast_mod, Nat.cast_pow, Nat.cast_ofNat,
    ← Int.sub_emod]

/-- A look at the levels moves the time and lets the pulses fall. -/
theorem step_observe {s : State} {n : Nat} {rest : List Stimulus} (hw : s.cfg.wf = true)
    (hp : s.pending = { op := .observe, now := n } :: rest) :
    step s = .next (quiet (present { op := .observe, now := n } rest s)) :=
  step_cons hw hp

end Sys2Proof.Machine

namespace Sys2Proof.Proofs

open Sys2Proof.Machine

/-- Settles O37: less than one wrap passes, so the difference is not reduced. -/
theorem elapsedIsTrueTime : Obligations.ElapsedIsTrueTime := by
  intro c t0 t1 hle hlt
  rw [elapsed_time c hle, Nat.mod_eq_of_lt (by omega)]

/-- Settles O44: the level compares the elapsed time, which is the reduced difference of the counts. -/
theorem connectedLevel : Obligations.ConnectedLevel := by
  intro s t0 t1 rest hw hp hcontact hle
  refine ⟨_, step_observe hw hp, rfl, ?_⟩
  have helapsed := elapsed_time s.cfg hle
  simp only [Machine.connectedLevel, quiet_tContact, present_tContact, hcontact]
  exact congrArg (fun e => decide (e < T_CONN)) helapsed

/-- Settles O48: with no stimulus the pulses fall; with a look at the levels the ports move too. -/
theorem stepWithoutOperation : Obligations.StepWithoutOperation :=
  fun _ hw => ⟨fun hp => step_nil hw hp, fun _ _ hp => step_observe hw hp⟩

end Sys2Proof.Proofs
end

section
/-! What an operation of the demultiplexer stores, consumes and raises (spec/41_rx_demux.md R66 to R77,
spec/20_memory.md R30, R32). -/

namespace Sys2Proof.Machine

variable {i : Instr} {s t : State} {b : Byte}

/-! ## The candidate -/

theorem heldBytes_getElem?_eq_some {n : Nat} : (heldBytes s)[n]? = some b ↔ n < s.wr ∧ accRead s n = b := by
  rw [List.getElem?_eq_some_iff]
  simp [heldBytes]

/-- What DEC of a sequence does to the state: a frame event where it accepts, and the accumulator reset. -/
def candidateTaken (r : List Byte) (s : State) : State :=
  match decodeFrame s.cfg.strictChecksum r with
  | .accepted f => clearAcc (emitFrame f s)
  | .rejected => clearAcc s

theorem takeCandidate_eq_taken (start : Nat) (s : State) :
    takeCandidate start s = candidateTaken ((heldBytes s).drop start) s :=
  takeCandidate_eq start s

theorem candidateTaken_cases (r : List Byte) (s : State) :
    (∃ f, decodeFrame s.cfg.strictChecksum r = .accepted f ∧ candidateTaken r s = clearAcc (emitFrame f s)) ∨
    (decodeFrame s.cfg.strictChecksum r = .rejected ∧ candidateTaken r s = clearAcc s) := by
  unfold candidateTaken
  cases h : decodeFrame s.cfg.strictChecksum r with
  | accepted f => exact .inl ⟨f, rfl, rfl⟩
  | rejected => exact .inr ⟨rfl, rfl⟩

/-- The acknowledgement-prefixed candidate (R69). -/
theorem endMarker_of_ack_stx {rest : List Byte} (h : heldBytes s = ACK :: STX :: rest) :
    endMarker s = candidateTaken (STX :: rest) (raiseAck s) := by
  obtain ⟨-, h0⟩ := heldBytes_getElem?_eq_some.1 (show (heldBytes s)[0]? = some ACK by simp [h])
  obtain ⟨hw, h1⟩ := heldBytes_getElem?_eq_some.1 (show (heldBytes s)[1]? = some STX by simp [h])
  have hheld : heldBytes (raiseAck s) = ACK :: STX :: rest := h
  rw [endMarker, if_pos ⟨hw, h0, h1⟩, takeCandidate_eq_taken, hheld]
  rfl

/-- The candidate with the start marker in front (R68). -/
theorem endMarker_of_stx {rest : List Byte} (h : heldBytes s = STX :: rest) :
    endMarker s = candidateTaken (STX :: rest) s := by
  obtain ⟨-, h0⟩ := heldBytes_getElem?_eq_some.1 (show (heldBytes s)[0]? = some STX by simp [h])
  have hack : ¬ AckPrefixed s := fun ⟨_, h, _⟩ => absurd (h0.symm.trans h) (by decide)
  rw [endMarker, if_neg hack, if_pos h0, takeCandidate_eq_taken, h]
  rfl

/-- No candidate (decision D6). -/
theorem endMarker_of_no_start (hpos : 0 < s.wr) (hack : (heldBytes s).take 2 ≠ [ACK, STX])
    (hstx : (heldBytes s).head? ≠ some STX) : endMarker s = clearAcc s := by
  have hpre : ¬ AckPrefixed s := fun ⟨hw, h0, h1⟩ => hack (by
    have e0 := heldBytes_getElem?_eq_some.2 ⟨hpos, h0⟩
    have e1 := heldBytes_getElem?_eq_some.2 ⟨hw, h1⟩
    match hheld : heldBytes s with
    | [] => simp [hheld] at e0
    | [_] => simp [hheld] at e1
    | x :: y :: rest => simp_all)
  have h0 : accRead s 0 ≠ STX := fun h => hstx (by
    rw [List.head?_eq_getElem?]
    exact heldBytes_getElem?_eq_some.2 ⟨hpos, h⟩)
  rw [endMarker, if_neg hpre, if_neg h0]
  rfl

/-- All that an end marker writes after its append. -/
theorem endMarker_eq (s : State) : endMarker s = { s with
    wr := 0
    ackFlag := (endMarker s).ackFlag
    tContact := (endMarker s).tContact
    out := { s.out with ackEvt := (endMarker s).out.ackEvt, frameEvt := (endMarker s).out.frameEvt } } := by
  rcases endMarker_cases s with ⟨-, he⟩ | ⟨-, -, he⟩ | ⟨-, -, he⟩ <;> rw [he]
  · rw [takeCandidate_eq_taken]
    rcases candidateTaken_cases ((heldBytes (raiseAck s)).drop 1) (raiseAck s) with ⟨f, -, h⟩ | ⟨-, h⟩ <;>
      rw [h] <;> rfl
  · rw [takeCandidate_eq_taken]
    rcases candidateTaken_cases ((heldBytes s).drop 0) s with ⟨f, -, h⟩ | ⟨-, h⟩ <;> rw [h] <;> rfl
  · rfl

theorem endMarker_acc (s : State) : (endMarker s).acc = s.acc := by rw [endMarker_eq]

/-! ## Receive idle -/

theorem exec_rxi (s : State) : exec .rxi s = .next (idleChecked (quiet s)) := execRxi_next.2 rfl

theorem idleChecked_of_ack (hd : s.cfg.soleByteDeferred = true) (hw : s.wr = 1) (ha : accRead s 0 = ACK) :
    idleChecked s = clearAcc (raiseAck s) := by
  rw [idleChecked, if_pos ⟨hd, hw⟩, if_pos ha]

theorem idleChecked_of_nak (hd : s.cfg.soleByteDeferred = true) (hw : s.wr = 1) (hn : accRead s 0 = NAK) :
    idleChecked s = clearAcc (raiseNak s) := by
  rw [idleChecked, if_pos ⟨hd, hw⟩, if_neg (by rw [hn]; decide), if_pos hn]

theorem idleChecked_of_other (h : s.cfg.soleByteDeferred = false ∨ s.wr ≠ 1 ∨ (accRead s 0 ≠ ACK ∧ accRead s 0 ≠ NAK)) :
    idleChecked s = s := by
  unfold idleChecked
  rcases h with hd | hw | ⟨ha, hn⟩
  · rw [if_neg (by simp [hd])]
  · rw [if_neg (by simp [hw])]
  · rw [if_neg ha, if_neg hn, ite_self]

/-! ## What is consumed and stored -/

/-- The bytes an operation consumes from the rx stream (R30). -/
def receivedBytes : Instr → List Byte
  | .rxbOvf b | .rxbData b => [b]
  | .rxbEtx => [ETX]
  | .rxbAck => [ACK]
  | .rxbNak => [NAK]
  | .enc _ | .dec _ | .rxi | .lsmSend _ | .lsmWait _ | .lsmIdle | .htx _ | .rst => []

/-- The byte an operation stores at the cursor (R32). -/
def storedByte : Instr → Option Byte
  | .rxbData b => some b
  | .rxbEtx => some ETX
  | .rxbAck => some ACK
  | .rxbNak => some NAK
  | .rxbOvf _ | .enc _ | .dec _ | .rxi | .lsmSend _ | .lsmWait _ | .lsmIdle | .htx _ | .rst => none

/-- The accumulator's cells after an operation that stores a byte, or none, at the cursor. -/
def storedAcc (s : State) : Option Byte → Memory
  | some b => Memory.write s.acc s.wr b
  | none => s.acc

/-- What every operation but RST does to the rx history and to the accumulator's cells. -/
theorem exec_rx_acc (he : exec i s = .next t) (hr : i ≠ .rst) :
    t.rx = s.rx ++ receivedBytes i ∧ t.acc = storedAcc s (storedByte i) ∧ t.accEpoch = s.accEpoch := by
  have hnil : s.rx = s.rx ++ [] := (List.append_nil _).symm
  cases i with
  | enc p => obtain ⟨-, rfl⟩ := execEnc_next.1 he; exact ⟨hnil, rfl, rfl⟩
  | dec r => obtain rfl := execDec_next.1 he; exact ⟨hnil, rfl, rfl⟩
  | rxbOvf b => obtain ⟨-, rfl⟩ := execRxbOvf_next.1 he; exact ⟨rfl, rfl, rfl⟩
  | rxbEtx => obtain ⟨-, rfl⟩ := execRxbEtx_next.1 he; rw [endMarker_eq]; exact ⟨rfl, rfl, rfl⟩
  | rxbAck => obtain ⟨-, rfl⟩ := execRxbAck_next.1 he; exact ⟨rfl, rfl, rfl⟩
  | rxbNak => obtain ⟨-, rfl⟩ := execRxbNak_next.1 he; exact ⟨rfl, rfl, rfl⟩
  | rxbData b => obtain ⟨-, -, rfl⟩ := execRxbData_next.1 he; exact ⟨rfl, rfl, rfl⟩
  | rxi =>
    obtain rfl := execRxi_next.1 he
    rcases idleChecked_cases (quiet s) with h | h | h <;> rw [h] <;> exact ⟨hnil, rfl, rfl⟩
  | lsmSend k => obtain ⟨-, p, -, -, rfl⟩ := execLsmSend_next.1 he; exact ⟨hnil, rfl, rfl⟩
  | lsmWait k => obtain ⟨-, -, rfl⟩ := execLsmWait_next_setLink.1 he; exact ⟨hnil, rfl, rfl⟩
  | lsmIdle => obtain ⟨-, rfl⟩ := execLsmIdle_next.1 he; exact ⟨hnil, rfl, rfl⟩
  | htx p => obtain ⟨-, rfl⟩ := execHtx_next.1 he; split_ifs <;> exact ⟨hnil, rfl, rfl⟩
  | rst => exact absurd rfl hr

/-- An operation that stores nothing leaves every cell. -/
theorem exec_accRead_of_stored_none (he : exec i s = .next t) (hr : i ≠ .rst) (h : storedByte i = none) (a : Nat) :
    accRead t a = accRead s a := by
  obtain ⟨-, hacc, hepoch⟩ := exec_rx_acc he hr
  exact accRead_congr (by rw [hacc, h, storedAcc]) hepoch a

/-- An operation that stores a byte leaves the cells of the appended state. -/
theorem exec_accRead_of_stored_some (he : exec i s = .next t) (hr : i ≠ .rst) (h : storedByte i = some b) (a : Nat) :
    accRead t a = accRead (appended b s) a := by
  obtain ⟨-, hacc, hepoch⟩ := exec_rx_acc he hr
  exact accRead_congr (t := appended b s) (by rw [hacc, h, storedAcc, appended_acc]) hepoch a

/-! ## Events -/

/-- What an operation of the demultiplexer does to the flags and the contact time, told by its events; it moves no
other output port. -/
theorem exec_ofDemux_effects (hi : OfDemux i) (he : exec i s = .next t) :
    t.ackFlag = (s.ackFlag || t.out.ackEvt) ∧ t.nakFlag = (s.nakFlag || t.out.nakEvt) ∧
    (t.tContact = if t.out.ackEvt = true ∨ t.out.frameEvt.isSome = true then some s.now else s.tContact) ∧
    t.out = { ackEvt := t.out.ackEvt, nakEvt := t.out.nakEvt, frameEvt := t.out.frameEvt } := by
  rcases hi with ⟨b, rfl⟩ | rfl | rfl | rfl | ⟨b, rfl⟩ | rfl
  · obtain ⟨-, rfl⟩ := execRxbOvf_next.1 he; simp
  · obtain ⟨hack, hnak, hcontact⟩ := exec_rxbEtx_effects he
    have hout : t.out = { ackEvt := t.out.ackEvt, frameEvt := t.out.frameEvt } := by
      obtain ⟨-, rfl⟩ := execRxbEtx_next.1 he
      exact congrArg State.out (endMarker_eq _)
    have hevt : t.out.nakEvt = false := congrArg Outputs.nakEvt hout
    exact ⟨hack, by rw [hnak, hevt, Bool.or_false], hcontact, by rw [hevt]; exact hout⟩
  · obtain ⟨-, rfl⟩ := execRxbAck_next.1 he; simp
  · obtain ⟨-, rfl⟩ := execRxbNak_next.1 he; simp
  · obtain ⟨-, -, rfl⟩ := execRxbData_next.1 he; simp
  · obtain rfl := execRxi_next.1 he
    rcases idleChecked_cases (quiet s) with h | h | h <;> rw [h] <;> simp

/-- The events of one operation: an end marker raises no negative-acknowledgement; any other operation raises one
event, which is no frame, or none. -/
theorem exec_event_cases (he : exec i s = .next t) :
    (i = .rxbEtx ∧ t.out.nakEvt = false) ∨
    (t.out.frameEvt = none ∧
      ((t.out.ackEvt = true ∧ t.out.nakEvt = false ∧ (i = .rxbAck ∨ i = .rxi)) ∨
        (t.out.ackEvt = false ∧ t.out.nakEvt = true ∧ (i = .rxbNak ∨ i = .rxi)) ∨
        (t.out.ackEvt = false ∧ t.out.nakEvt = false))) := by
  by_cases hi : RaisesEvents i
  · rcases hi with rfl | rfl | rfl | rfl
    · obtain ⟨-, rfl⟩ := execRxbEtx_next.1 he
      exact .inl ⟨rfl, congrArg (fun u : State => u.out.nakEvt) (endMarker_eq _)⟩
    · obtain ⟨-, rfl⟩ := execRxbAck_next.1 he
      exact .inr ⟨rfl, .inl ⟨rfl, rfl, .inl rfl⟩⟩
    · obtain ⟨-, rfl⟩ := execRxbNak_next.1 he
      exact .inr ⟨rfl, .inr (.inl ⟨rfl, rfl, .inl rfl⟩)⟩
    · obtain rfl := execRxi_next.1 he
      rcases idleChecked_cases (quiet s) with h | h | h <;> rw [h]
      · exact .inr ⟨rfl, .inl ⟨rfl, rfl, .inr rfl⟩⟩
      · exact .inr ⟨rfl, .inr (.inl ⟨rfl, rfl, .inr rfl⟩)⟩
      · exact .inr ⟨rfl, .inr (.inr ⟨rfl, rfl⟩)⟩
  · obtain ⟨hack, hnak, hframe, -⟩ := exec_raises_nothing he hi
    exact .inr ⟨hframe, .inr (.inr ⟨hack, hnak⟩)⟩

end Sys2Proof.Machine

namespace Sys2Proof.Proofs

open Sys2Proof.Machine

/-- Settles O14: the arm resets the cursor after taking the byte from the stream. -/
theorem overflowResult : Obligations.OverflowResult := fun _ _ hfull => execRxbOvf_next.2 ⟨hfull, rfl⟩

/-- Settles O16: the cursor goes from 0 to 1 and back. -/
theorem soleAckResult : Obligations.SoleAckResult := by
  intro s h0 hcap hd
  refine ⟨_, execRxbAck_next.2 ⟨⟨h0, hcap, hd⟩, rfl⟩, ?_⟩
  rw [h0]
  rfl

/-- Settles O17: the cursor goes from 0 to 1 and back. -/
theorem soleNakResult : Obligations.SoleNakResult := by
  intro s h0 hcap hd
  refine ⟨_, execRxbNak_next.2 ⟨⟨h0, hcap, hd⟩, rfl⟩, ?_⟩
  rw [h0]
  rfl

/-- Settles O18: the bytes held with the marker appended are the candidate, and its first bytes decide which of the
three kinds it is. -/
theorem endMarkerResult : Obligations.EndMarkerResult := by
  intro s hroom
  have hheld := heldBytes_appended ETX (takeRx ETX (quiet s))
  refine ⟨_, execRxbEtx_next.2 ⟨hroom, rfl⟩, ?_, fun rest h => ?_, fun rest h => ?_, fun hack hstx => ?_⟩
  · rw [endMarker_acc]
    exact endMarker_eq _
  · rw [endMarker_of_ack_stx (hheld.trans h)]
    rcases candidateTaken_cases (STX :: rest) (raiseAck (appended ETX (takeRx ETX (quiet s))))
      with ⟨f, hd, hc⟩ | ⟨hd, hc⟩ <;> rw [hc]
    · simp only [show decodeFrame s.cfg.strictChecksum (0x02#8 :: rest) = .accepted f from hd]
      exact ⟨rfl, rfl, rfl, rfl⟩
    · simp only [show decodeFrame s.cfg.strictChecksum (0x02#8 :: rest) = .rejected from hd]
      exact ⟨rfl, rfl, rfl, rfl⟩
  · rw [endMarker_of_stx (hheld.trans h)]
    rcases candidateTaken_cases (STX :: rest) (appended ETX (takeRx ETX (quiet s)))
      with ⟨f, hd, hc⟩ | ⟨hd, hc⟩ <;> rw [hc]
    · simp only [show decodeFrame s.cfg.strictChecksum (0x02#8 :: rest) = .accepted f from hd]
      exact ⟨rfl, rfl, rfl, rfl⟩
    · simp only [show decodeFrame s.cfg.strictChecksum (0x02#8 :: rest) = .rejected from hd]
      exact ⟨rfl, rfl, rfl, rfl⟩
  · rw [endMarker_of_no_start (Nat.succ_pos _) (hheld ▸ hack) (hheld ▸ hstx)]
    rfl

/-- Settles O19: the byte held decides, under the deferred reading, which of the three states RXI leaves. -/
theorem receiveIdleResult : Obligations.ReceiveIdleResult := by
  intro s
  refine ⟨fun h => ?_, fun hd hw ha => ?_, fun hd hw hn => ?_⟩ <;> rw [exec_rxi]
  · rw [idleChecked_of_other (s := quiet s) h]
    rfl
  · rw [idleChecked_of_ack (s := quiet s) hd hw ha]
    rfl
  · rw [idleChecked_of_nak (s := quiet s) hd hw hn]
    rfl

/-- Settles O21: the frame of the demultiplexer, the effects told by the events, and the byte consumed. -/
theorem demultiplexerFrame : Obligations.DemultiplexerFrame := by
  intro i s t he hi
  have hr : i ≠ .rst := by
    rintro rfl
    simp at hi
  obtain ⟨hcfg, hnow, hpending, hdraws⟩ := exec_keeps he
  obtain ⟨hlink, haction, htx⟩ := exec_ofDemux_frame hi he
  obtain ⟨hack, hnak, hcontact, hout⟩ := exec_ofDemux_effects hi he
  obtain ⟨hrx, -, hepoch⟩ := exec_rx_acc he hr
  refine ⟨hcfg, hlink, haction, htx, hnow, hpending, hdraws, hepoch, hack, hnak, hcontact, congrArg Outputs.tx hout,
    congrArg Outputs.hostRefused hout, congrArg Outputs.encResult hout, congrArg Outputs.decResult hout, ?_, ?_⟩
  · rintro rfl
    rw [hrx, receivedBytes, List.append_nil]
  · rintro b (rfl | rfl | ⟨rfl, rfl⟩ | ⟨rfl, rfl⟩ | ⟨rfl, rfl⟩) <;> exact hrx

/-- Settles O22: the byte stored is read back at the cursor, and other cells are those before. -/
theorem accumulatorFrame : Obligations.AccumulatorFrame := by
  intro i s t he hr
  refine ⟨fun b hi => ?_, fun hi a => ?_⟩
  · have hstored : storedByte i = some b := by
      rcases hi with rfl | ⟨rfl, rfl⟩ | ⟨rfl, rfl⟩ | ⟨rfl, rfl⟩ <;> rfl
    have hread := exec_accRead_of_stored_some he hr hstored
    exact ⟨by rw [hread, accRead_appended_same], fun a ha => by rw [hread, accRead_appended_other ha]⟩
  · refine exec_accRead_of_stored_none he hr ?_ a
    rcases hi with ⟨_, rfl⟩ | rfl | ⟨_, rfl⟩ | ⟨_, rfl⟩ | rfl | ⟨_, rfl⟩ | ⟨_, rfl⟩ | ⟨_, rfl⟩ <;> rfl

/-- Settles O23: the cases of the events of one operation exclude what the statement excludes. -/
theorem eventsExclusive : Obligations.EventsExclusive := by
  intro i s t he
  rcases exec_event_cases he with ⟨rfl, hnak⟩ | ⟨hframe, ⟨hack, hnak, hi⟩ | ⟨hack, hnak, hi⟩ | ⟨hack, hnak⟩⟩
  · simp [hnak]
  · simp [hframe, hack, hnak, hi]
  · simp [hframe, hack, hnak, hi]
  · simp [hframe, hack, hnak]

end Sys2Proof.Proofs
end

section
/-! The arms together are the operations that the spec also gives whole (spec/41_rx_demux.md R65,
spec/42_link_fsm.md R80). -/

namespace Sys2Proof.Machine

variable {s : State} {b : Byte}

/-! ## RXB -/

theorem takeCandidate_eq_decodeFrom (start : Nat) (s : State) :
    takeCandidate start s = clearAcc (decodeFrom (some start, s)) := by
  simp only [takeCandidate, decodeFrom]
  cases decodeFrame s.cfg.strictChecksum (candidate start s) <;> rfl

/-- The end marker's arm is the inner `if` of R65 and the lines after it. -/
theorem endMarker_eq_whole (s : State) : endMarker s = clearAcc (decodeFrom (resolveStart s)) := by
  unfold endMarker resolveStart
  split_ifs
  · exact takeCandidate_eq_decodeFrom 1 (raiseAck s)
  · exact takeCandidate_eq_decodeFrom 0 s
  · rfl

/-- R65 at a full accumulator. -/
theorem rxbWhole_of_full (b : Byte) (h : s.wr = s.cfg.cap) :
    rxbWhole b s = .next (clearAcc (takeRx b (quiet s))) := if_pos h

/-- R65 below `CAP`: the byte is appended, and its class decides the rest. -/
theorem rxbWhole_of_lt (b : Byte) (h : s.wr < s.cfg.cap) : rxbWhole b s =
    if b = ETX then .next (endMarker (appended b (takeRx b (quiet s))))
    else if SoleOnArrival s.cfg s.wr ACK b then .next (clearAcc (raiseAck (appended b (takeRx b (quiet s)))))
    else if SoleOnArrival s.cfg s.wr NAK b then .next (clearAcc (raiseNak (appended b (takeRx b (quiet s)))))
    else .next (appended b (takeRx b (quiet s))) := by
  have hroom : (takeRx b (quiet s)).wr < (takeRx b (quiet s)).cfg.cap := h
  rw [rxbWhole, if_neg hroom.ne, append_of_lt hroom, andThen_of_next]
  simp [SoleOnArrival, endMarker_eq_whole]

theorem rxbWhole_of_gt (b : Byte) (h : s.cfg.cap < s.wr) : rxbWhole b s = .fault .accIndexOutOfRange := by
  have hover : (takeRx b (quiet s)).cfg.cap < (takeRx b (quiet s)).wr := h
  rw [rxbWhole, if_neg hover.ne', append_of_ge hover.le]
  rfl

/-! A cursor above `CAP`, which no run reaches (R12). -/

theorem exec_rxbEtx_of_gt (h : s.cfg.cap < s.wr) : exec .rxbEtx s = .fault .accIndexOutOfRange := by
  have hsel : selected .rxbEtx s = true := by simp [selected, Instr.selectedAt, h.ne']
  rw [exec, execRxbEtx, whenSelected_of hsel, append_of_ge (s := takeRx ETX (quiet s)) h.le]
  rfl

theorem exec_rxbData_of_gt (h : s.cfg.cap < s.wr) (hb : b ≠ ETX) :
    exec (.rxbData b) s = .fault .accIndexOutOfRange := by
  have hsel : selected (.rxbData b) s = true := by
    simp [selected, Instr.selectedAt, SoleOnArrival, h.ne', hb, Nat.ne_zero_of_lt h]
  rw [exec, execRxbData, whenSelected_of hsel, append_of_ge (s := takeRx b (quiet s)) h.le]

theorem exec_decodeRxByte_of_gt (b : Byte) (h : s.cfg.cap < s.wr) :
    exec (decodeRxByte s.cfg s.wr b) s = .fault .accIndexOutOfRange := by
  have hpos : s.wr ≠ 0 := Nat.ne_zero_of_lt h
  rw [decodeRxByte, if_neg h.ne']
  split_ifs with hetx hack hnak
  · exact exec_rxbEtx_of_gt h
  · exact absurd hack.1 hpos
  · exact absurd hnak.1 hpos
  · exact exec_rxbData_of_gt h hetx

/-! ## LSM -/

theorem lsmWhole_send {k : Nat} {p : List Byte} (hl : s.link = .send k) (hp : s.cfg.initCmd[k]? = some p) :
    lsmWhole s = if p.length ≤ s.cfg.maxPayload then .next (setLink (.wait k) (transmitted p (quiet s)))
      else .refused .payloadTooLong := by
  simp only [lsmWhole, quiet_link, quiet_cfg, hl, hp]
  rfl

theorem exec_lsmSend {k : Nat} {p : List Byte} (hl : s.link = .send k) (hp : s.cfg.initCmd[k]? = some p) :
    exec (.lsmSend k) s = if p.length ≤ s.cfg.maxPayload then .next (setLink (.wait k) (transmitted p (quiet s)))
      else .refused .payloadTooLong := by
  have hsel : selected (.lsmSend k) s = true := decide_eq_true hl
  simp only [exec, execLsmSend, whenSelected_of hsel, initCommand, quiet_cfg, hp]
  by_cases h : p.length ≤ s.cfg.maxPayload
  · rw [if_pos h, transmit_of_le (s := quiet s) h, andThen_of_next]
  · rw [if_neg h, transmit, quiet_cfg, if_neg h]
    rfl

theorem lsmWhole_wait {k : Nat} (hl : s.link = .wait k) (hk : k < s.cfg.nSteps) :
    lsmWhole s = .next (setLink (waitTarget k s) (quiet s)) := by
  have hl' : (quiet s).link = .wait k := hl
  simp only [lsmWhole, hl']
  rw [if_pos (show k < (quiet s).cfg.nSteps from hk)]
  by_cases hadv : Advances k s
  · rw [if_pos (show Advances k (quiet s) from hadv), waitTarget_of_advances hadv]
    rfl
  · rw [if_neg (show ¬ Advances k (quiet s) from hadv), waitTarget_of_not_advances hadv]
    by_cases hto : TimedOut s
    · rw [if_pos (show TimedOut (quiet s) from hto), if_pos hto]
      rfl
    · rw [if_neg (show ¬ TimedOut (quiet s) from hto), if_neg hto, setLink_wait_quiet hl]

/-- The arm that the link state selects does what R80 says for it. -/
theorem exec_stepArm (h : s.link.inRange s.cfg = true) : exec (stepArm s.link) s = lsmWhole s := by
  cases hl : s.link with
  | send k =>
    rw [hl] at h
    have hp : s.cfg.initCmd[k]? = some _ := List.getElem?_eq_getElem (of_decide_eq_true h)
    rw [stepArm, exec_lsmSend hl hp, lsmWhole_send hl hp]
  | wait k =>
    rw [hl] at h
    have hk : k < s.cfg.nSteps := of_decide_eq_true h
    rw [lsmWhole_wait hl hk]
    exact execLsmWait_next_setLink.2 ⟨hl, hk, rfl⟩
  | idle =>
    simp only [lsmWhole, quiet_link, hl]
    exact execLsmIdle_next.2 ⟨hl, rfl⟩

end Sys2Proof.Machine

namespace Sys2Proof.Proofs

open Sys2Proof.Machine

/-- Settles O20: at a full accumulator both drop the byte; below, both append it and the class of the byte decides the
rest in the same order; above, both stop at the append. -/
theorem armsAreReceiveByte : Obligations.ArmsAreReceiveByte := by
  intro b s
  rcases lt_trichotomy s.wr s.cfg.cap with hlt | hfull | hgt
  · obtain ⟨hsel, -⟩ := decodeRxByte_selected b s
    rw [rxbWhole_of_lt b hlt]
    rw [decodeRxByte, if_neg hlt.ne] at hsel ⊢
    split_ifs at hsel ⊢ with hetx hack hnak
    · exact hetx ▸ execRxbEtx_next.2 ⟨hlt, rfl⟩
    · obtain ⟨h0, rfl, hd⟩ := hack
      exact execRxbAck_next.2 ⟨⟨h0, h0 ▸ hlt, hd⟩, rfl⟩
    · obtain ⟨h0, rfl, hd⟩ := hnak
      exact execRxbNak_next.2 ⟨⟨h0, h0 ▸ hlt, hd⟩, rfl⟩
    · exact execRxbData_next.2 ⟨hsel, hlt, rfl⟩
  · rw [rxbWhole_of_full b hfull, decodeRxByte, if_pos hfull]
    exact execRxbOvf_next.2 ⟨hfull, rfl⟩
  · rw [rxbWhole_of_gt b hgt, exec_decodeRxByte_of_gt b hgt]

/-- Settles O34: the code of a link state in range decodes to its arm. -/
theorem armsAreStepCheck : Obligations.ArmsAreStepCheck :=
  fun _ h => ⟨_, decode_link h, exec_stepArm h⟩

/-- Settles O29: the command of a table that R5 allows is in ENC's domain. -/
theorem sendResult : Obligations.SendResult :=
  fun _ _ _ hw hl hp => execLsmSend_next.2 ⟨hl, _, hp, Config.payload_le hw hp, rfl⟩

/-- Settles O31: the flag is an advance condition at `NAK_OK_STEP`, and no part of it at another step. -/
theorem waitAndNak : Obligations.WaitAndNak := by
  intro s k hl hk
  refine ⟨fun hstep hnak => ?_, fun hstep nak t he => ?_⟩
  · refine execLsmWait_next_setLink.2 ⟨hl, hk, ?_⟩
    rw [waitTarget_of_advances (.inr ⟨hstep, hnak⟩)]
    rfl
  · obtain ⟨-, -, rfl⟩ := execLsmWait_next_setLink.1 he
    have htarget : waitTarget k { s with nakFlag := nak } = waitTarget k s := by
      simp only [waitTarget, Advances, TimedOut, nextStep, hstep, false_and]
    refine execLsmWait_next_setLink.2 ⟨hl, hk, ?_⟩
    rw [htarget]
    rfl

end Sys2Proof.Proofs
end

section
/-! The host port and reset: who transmits, who clears a flag, the levels, and the entries to the errors
(spec/43_host_port.md, spec/60_exceptions.md R121, spec/70_reset_and_hazards.md R140). -/

namespace Sys2Proof.Machine

variable {i : Instr} {s t : State}

/-- The operations that transmit: a send of LSM, and a host send in IDLE. -/
def Transmits (i : Instr) (s : State) : Prop :=
  (s.link ≠ .idle ∧ ∃ k, i = .lsmSend k) ∨ (s.link = .idle ∧ ∃ p, i = .htx p)

/-- What is appended to `tx` stands on the output port. -/
theorem exec_tx (he : exec i s = .next t) : t.tx = s.tx ++ t.out.tx := by
  by_cases hd : OfDemux i
  · obtain ⟨-, -, htx⟩ := exec_ofDemux_frame hd he
    obtain ⟨-, -, -, hout⟩ := exec_ofDemux_effects hd he
    rw [htx, hout, List.append_nil]
  have hnil : s.tx = s.tx ++ [] := (List.append_nil _).symm
  cases i with
  | rxbOvf | rxbEtx | rxbAck | rxbNak | rxbData | rxi => simp [OfDemux] at hd
  | enc p => obtain ⟨-, rfl⟩ := execEnc_next.1 he; exact hnil
  | dec r => obtain rfl := execDec_next.1 he; exact hnil
  | lsmSend k => obtain ⟨-, p, -, -, rfl⟩ := execLsmSend_next.1 he; rfl
  | lsmWait k => obtain ⟨-, -, rfl⟩ := execLsmWait_next_setLink.1 he; exact hnil
  | lsmIdle => obtain ⟨-, rfl⟩ := execLsmIdle_next.1 he; exact hnil
  | htx p =>
    obtain ⟨-, rfl⟩ := execHtx_next.1 he
    split_ifs
    · rfl
    · exact hnil
  | rst => obtain rfl := execRst_next.1 he; exact hnil

/-- An operation that does not transmit leaves `tx` and, unless it is a reset, clears no flag. -/
theorem exec_of_not_transmits (he : exec i s = .next t) (hi : ¬ Transmits i s) :
    t.tx = s.tx ∧ (i ≠ .rst → (s.ackFlag = true → t.ackFlag = true) ∧ (s.nakFlag = true → t.nakFlag = true)) := by
  by_cases hd : OfDemux i
  · obtain ⟨-, -, htx⟩ := exec_ofDemux_frame hd he
    obtain ⟨hack, hnak, -⟩ := exec_ofDemux_effects hd he
    exact ⟨htx, fun _ => ⟨fun h => by simp [hack, h], fun h => by simp [hnak, h]⟩⟩
  cases i with
  | rxbOvf | rxbEtx | rxbAck | rxbNak | rxbData | rxi => simp [OfDemux] at hd
  | enc p => obtain ⟨-, rfl⟩ := execEnc_next.1 he; exact ⟨rfl, fun _ => ⟨id, id⟩⟩
  | dec r => obtain rfl := execDec_next.1 he; exact ⟨rfl, fun _ => ⟨id, id⟩⟩
  | lsmSend k =>
    obtain ⟨hl, -⟩ := execLsmSend_next.1 he
    exact absurd (.inl ⟨by simp [hl], k, rfl⟩) hi
  | lsmWait k => obtain ⟨-, -, rfl⟩ := execLsmWait_next_setLink.1 he; exact ⟨rfl, fun _ => ⟨id, id⟩⟩
  | lsmIdle => obtain ⟨-, rfl⟩ := execLsmIdle_next.1 he; exact ⟨rfl, fun _ => ⟨id, id⟩⟩
  | htx p =>
    have hl : s.link ≠ .idle := fun hl => hi (.inr ⟨hl, p, rfl⟩)
    obtain ⟨-, rfl⟩ := execHtx_next.1 he
    rw [if_neg hl]
    exact ⟨rfl, fun _ => ⟨id, id⟩⟩
  | rst => obtain rfl := execRst_next.1 he; exact ⟨rfl, fun h => absurd rfl h⟩

/-- Among the link states that exist, IDLE is told by its code. -/
theorem idleLevel_iff (h : s.link.inRange s.cfg = true) : idleLevel s = true ↔ stateLevel s = 2 * s.cfg.nSteps := by
  unfold idleLevel stateLevel
  cases hl : s.link with
  | send k | wait k =>
    rw [hl] at h
    have hk : k < s.cfg.nSteps := of_decide_eq_true h
    simp only [LinkState.code, reduceCtorEq, decide_false, Bool.false_eq_true, false_iff]
    omega
  | idle => simp [LinkState.code]

end Sys2Proof.Machine

namespace Sys2Proof.Proofs

open Sys2Proof.Machine

/-- Settles O40: in IDLE HTX is the shared transmission. -/
theorem hostSendAccepted : Obligations.HostSendAccepted := by
  intro s p hl hp
  refine execHtx_next.2 ⟨hp, ?_⟩
  rw [if_pos hl]
  rfl

/-- Settles O41: outside IDLE HTX is the entry to the refusal. -/
theorem hostSendRefused : Obligations.HostSendRefused := by
  intro s p hl hp
  refine execHtx_next.2 ⟨hp, ?_⟩
  rw [if_neg hl]
  rfl

/-- Settles O42: an operation that is neither of the two senders leaves `tx`, and clears a flag as a reset only. -/
theorem phaseOwnership : Obligations.PhaseOwnership := by
  intro i s t he
  refine ⟨fun htx => ?_, fun hflag => ?_, t.out.tx, exec_tx he, rfl⟩
  · by_contra hi
    exact htx (exec_of_not_transmits he hi).1
  · by_contra! hne
    obtain ⟨hr, hi⟩ := hne
    obtain ⟨hack, hnak⟩ := (exec_of_not_transmits he (by simpa [Transmits] using hi)).2 hr
    rcases hflag with ⟨hs, ht⟩ | ⟨hs, ht⟩
    · simp [hack hs] at ht
    · simp [hnak hs] at ht

/-- Settles O43: the levels read the registers; a host send or a reset sets no flag, and a codec call writes the output
port only. -/
theorem levelOutputs : Obligations.LevelOutputs := by
  intro s
  refine ⟨fun k hl => ?_, fun k hl => ?_, fun hl => ?_, idleLevel_iff, fun t ht => ?_, fun i t he hi => ?_,
    fun i t he hi => ?_⟩
  · rw [stateLevel, hl, LinkState.code]
  · rw [stateLevel, hl, LinkState.code]
  · rw [stateLevel, hl, LinkState.code]
  · cases ht
    rfl
  · have hnone : ¬ RaisesEvents i := by rcases hi with ⟨p, rfl⟩ | rfl <;> simp [RaisesEvents]
    obtain ⟨-, -, -, hack, hnak⟩ := exec_raises_nothing he hnone
    exact ⟨fun h => hack.elim (fun e => e ▸ h) fun e => by simp [e] at h,
      fun h => hnak.elim (fun e => e ▸ h) fun e => by simp [e] at h⟩
  · rcases hi with ⟨p, rfl⟩ | ⟨r, rfl⟩
    · obtain ⟨-, rfl⟩ := execEnc_next.1 he
      exact ⟨rfl, rfl⟩
    · obtain rfl := execDec_next.1 he
      exact ⟨rfl, rfl⟩

/-- Settles O45, by the state that RST leaves. -/
theorem resetResult : Obligations.ResetResult := fun _ => ⟨_, execRst_next.2 rfl, rfl⟩

/-- Settles O55: only the entry to the timeout looks at the state, at the wait state it leaves. -/
theorem errorEntries : Obligations.ErrorEntries :=
  fun _ => ⟨rfl, rfl, fun _ hl => by rw [takeError, hl]; rfl, rfl, rfl, rfl, rfl⟩

end Sys2Proof.Proofs
end

section
/-! How a step reaches its operation, and where it stops by name (spec/00_scope.md R9, spec/30_encoding.md R45, R48,
spec/60_exceptions.md R120). -/

namespace Sys2Proof.Machine

variable {i : Instr} {s : State}

/-- A strobe whose port word decodes to an operation performs it. -/
theorem perform_of_decode {op : PortOp} {w : PortWord} (hl : op = .lsm → s.link.inRange s.cfg = true)
    (hw : portWord s op = some w) (hd : decode s.cfg s.wr w = .ok i) : perform op s = exec i s := by
  have hrange : ¬ (op = .lsm ∧ s.link.inRange s.cfg = false) := fun ⟨hop, hout⟩ => by simp [hl hop] at hout
  simp only [perform, hw, if_neg hrange, hd]

/-- In a state that selects an operation, its strobe puts its encoding on the port. -/
theorem strobeCarriesWord (i : Instr) : Laws.StrobeCarriesWord.Statement i := by
  cases i with
  | enc p => exact Laws.StrobeCarriesWord.enc p
  | dec r => exact Laws.StrobeCarriesWord.dec r
  | rxbOvf b => exact Laws.StrobeCarriesWord.rxbOvf b
  | rxbEtx => exact Laws.StrobeCarriesWord.rxbEtx
  | rxbAck => exact Laws.StrobeCarriesWord.rxbAck
  | rxbNak => exact Laws.StrobeCarriesWord.rxbNak
  | rxbData b => exact Laws.StrobeCarriesWord.rxbData b
  | rxi => exact Laws.StrobeCarriesWord.rxi
  | lsmSend k => exact Laws.StrobeCarriesWord.lsmSend k
  | lsmWait k => exact Laws.StrobeCarriesWord.lsmWait k
  | lsmIdle => exact Laws.StrobeCarriesWord.lsmIdle
  | htx p => exact Laws.StrobeCarriesWord.htx p
  | rst => exact Laws.StrobeCarriesWord.rst

/-- A selected arm of LSM with its index in range tells that the link state is. -/
theorem inRange_of_strobe_lsm (hsel : selected i s = true) (hwf : i.wf s.cfg = true) (hop : strobeOf i = .lsm) :
    s.link.inRange s.cfg = true := by
  cases i with
  | lsmSend k | lsmWait k =>
    have hl := of_decide_eq_true (Bool.and_eq_true_iff.1 hsel).2
    rw [hl]
    exact hwf
  | lsmIdle =>
    have hl : s.link = .idle := of_decide_eq_true (Bool.and_eq_true_iff.1 hsel).2
    rw [hl]
    rfl
  | enc | dec | rxbOvf | rxbEtx | rxbAck | rxbNak | rxbData | rxi | htx | rst => cases hop

/-- The strobe of an operation performs it, in a state that selects it. -/
theorem perform_strobeOf (hsel : selected i s = true) (hwf : i.wf s.cfg = true) :
    perform (strobeOf i) s = exec i s :=
  perform_of_decode (inRange_of_strobe_lsm hsel hwf) (strobeCarriesWord i s hsel)
    (Proofs.decodeOfEncode s.cfg s.wr i hwf (selectedAt_of_selected hsel))

/-! ## The words of the operation table, after reset -/

/-- A word of the table is read by the decoder, under TC and at an empty accumulator. -/
theorem decodeTableWord_decode {nbits w : Nat} (h : decodeTableWord nbits w = some i) :
    ∃ pw, decode .tc 0 pw = .ok i := by
  unfold decodeTableWord at h
  split_ifs at h
  · dsimp only at h
    split at h
    next j hj =>
      obtain rfl := Option.some.inj h
      unfold decodeTableByte at hj
      split_ifs at hj
      · exact ⟨_, hj⟩
      · split at hj
        next k hk => exact ⟨_, hk.trans hj⟩
        next => exact ⟨_, hj⟩
    next => cases h
  · dsimp only at h
    split at h
    next j hj =>
      obtain rfl := Option.some.inj h
      unfold decodeTableFrame at hj
      split at hj <;> exact ⟨_, hj⟩
    next => cases h

/-- The state after reset in which an operation is presented, when its stimulus has left the queue. -/
def presented (i : Instr) : State := { makeSelect i State.reset with draws := 1 }

/-- The parameters that `makeSelect` sets are those of TC already. -/
theorem makeSelect_reset_cfg (i : Instr) : (makeSelect i State.reset).cfg = .tc := by cases i <;> rfl

theorem makeSelect_reset_wr_le (i : Instr) : (makeSelect i State.reset).wr ≤ Config.tc.cap := by
  cases i with
  | rxbOvf b => exact le_rfl
  | enc | dec | rxbEtx | rxbAck | rxbNak | rxbData | rxi | lsmSend | lsmWait | lsmIdle | htx | rst =>
    exact Nat.zero_le _

theorem present_presentInstr_reset (i : Instr) :
    present { op := strobeOf i, now := 0 } [] (presentInstr i State.reset) = presented i := by cases i <;> rfl

theorem step_presentInstr_reset (i : Instr) :
    step (presentInstr i State.reset) = perform (strobeOf i) (presented i) := by
  have hw : (presentInstr i State.reset).cfg.wf = true := (makeSelect_reset_cfg i).symm ▸ by decide
  rw [← present_presentInstr_reset]
  refine step_cons hw ?_
  cases i <;> rfl

/-- `makeSelect` makes the state after reset select an operation that the table gives. -/
theorem presented_selected (hsel : i.selectedAt .tc 0 = true) : selected i (presented i) = true := by
  cases i with
  | lsmSend k | lsmWait k => simp [selected, Instr.selectedAt, presented, makeSelect]
  | rxbData b => exact Bool.and_eq_true_iff.2 ⟨hsel, rfl⟩
  | enc | dec | rxbOvf | rxbEtx | rxbAck | rxbNak | rxi | lsmIdle | htx | rst => rfl

/-! ## Stops -/

theorem andThen_ne_refused {o : Result} {f : State → Result} {r : Refusal} (ho : o ≠ .refused r)
    (hf : ∀ t, f t ≠ .refused r) : andThen o f ≠ .refused r := by
  cases o with
  | next t => exact hf t
  | fault e => exact nofun
  | refused e => exact ho

theorem append_ne_refused (b : Byte) (s : State) (r : Refusal) : append b s ≠ .refused r := by
  rcases Nat.lt_or_ge s.wr s.cfg.cap with h | h
  · simp [append_of_lt h]
  · simp [append_of_ge h]

/-- Every operation is an arm that asks for its selection, and refuses for that reason in no other place (log 15). -/
theorem exec_eq_whenSelected (i : Instr) (s : State) :
    ∃ f : State → Result, exec i s = whenSelected i f s ∧ ∀ t, f t ≠ .refused .notSelected := by
  cases i with
  | enc p => exact ⟨_, by rw [exec, execEnc], fun t => by split_ifs <;> simp⟩
  | dec r => exact ⟨_, by rw [exec, execDec], fun t => by simp⟩
  | rxbOvf b => exact ⟨_, by rw [exec, execRxbOvf], fun t => by simp⟩
  | rxbEtx =>
    exact ⟨_, by rw [exec, execRxbEtx], fun t => andThen_ne_refused (append_ne_refused _ _ _) fun _ => by simp⟩
  | rxbAck =>
    exact ⟨_, by rw [exec, execRxbAck], fun t => andThen_ne_refused (append_ne_refused _ _ _) fun _ => by simp⟩
  | rxbNak =>
    exact ⟨_, by rw [exec, execRxbNak], fun t => andThen_ne_refused (append_ne_refused _ _ _) fun _ => by simp⟩
  | rxbData b => exact ⟨_, by rw [exec, execRxbData], fun t => append_ne_refused _ _ _⟩
  | rxi => exact ⟨_, by rw [exec, execRxi], fun t => by split_ifs <;> simp⟩
  | lsmSend k =>
    refine ⟨_, by rw [exec, execLsmSend], fun t => ?_⟩
    cases initCommand k t with
    | none => simp
    | some p =>
      refine andThen_ne_refused ?_ fun _ => by simp
      unfold transmit
      split_ifs <;> simp
  | lsmWait k => exact ⟨_, by rw [exec, execLsmWait], fun t => by split_ifs <;> simp⟩
  | lsmIdle => exact ⟨_, by rw [exec, execLsmIdle], fun t => by simp⟩
  | htx p =>
    refine ⟨_, by rw [exec, execHtx], fun t => ?_⟩
    unfold transmit
    split_ifs <;> simp
  | rst => exact ⟨_, by rw [exec, execRst], fun t => by simp⟩

theorem exec_of_not_selected (h : selected i s = false) : exec i s = .refused .notSelected := by
  obtain ⟨f, he, -⟩ := exec_eq_whenSelected i s
  rw [he, whenSelected_of_not h]

theorem exec_ne_notSelected (h : selected i s = true) : exec i s ≠ .refused .notSelected := by
  obtain ⟨f, he, hf⟩ := exec_eq_whenSelected i s
  rw [he, whenSelected_of h]
  exact hf _

theorem perform_ne_notSelected (op : PortOp) (s : State) : perform op s ≠ .refused .notSelected := by
  rcases perform_cases op s with ⟨-, h⟩ | ⟨-, -, h⟩ | ⟨p, -, -, h⟩ | ⟨i, h, hsel, -⟩ <;> rw [h]
  · simp
  · simp
  · simp
  · exact exec_ne_notSelected hsel

theorem step_ne_notSelected (s : State) : step s ≠ .refused .notSelected := by
  cases hw : s.cfg.wf with
  | false => simp [step_bad hw]
  | true =>
    cases hp : s.pending with
    | nil => simp [step_nil hw hp]
    | cons st rest =>
      rw [step_cons hw hp]
      exact perform_ne_notSelected _ _

theorem perform_lsm_of_not_inRange (h : s.link.inRange s.cfg = false) :
    perform .lsm s = .fault .linkStateOutOfRange := if_pos ⟨rfl, h⟩

theorem perform_rx (b : Byte) (s : State) : perform (.rx b) s = exec (decodeRxByte s.cfg s.wr b) s :=
  perform_of_decode nofun rfl rfl

end Sys2Proof.Machine

namespace Sys2Proof.Proofs

open Sys2Proof.Machine

/-- Settles O47: the ports' taking of the stimulus changes neither what the port word nor what its decoding depends
on. -/
theorem stepRunsDecoded : Obligations.StepRunsDecoded := by
  intro s st rest w i hwf hp hl hw hd
  have hw' : portWord (present st rest s) st.op = some w := hw ▸ by cases st.op <;> rfl
  rw [step_cons hwf hp]
  exact perform_of_decode (s := present st rest s) hl hw' hd

/-- Settles O49: the table's operation is selected after `makeSelect`, so its strobe performs it, and it completes. -/
theorem fetchWordRunsNext : Obligations.FetchWordRunsNext := by
  intro nbits w i hi
  obtain ⟨pw, hd⟩ := decodeTableWord_decode hi
  obtain ⟨-, hwf, hat⟩ := encodeOfDecode .tc 0 pw i hd
  have hsel := presented_selected hat
  have hcfg : (presented i).cfg = .tc := makeSelect_reset_cfg i
  have hfetch : State.reset.withFetchWord nbits w = presentInstr i State.reset := by
    rw [State.withFetchWord, hi]
  obtain ⟨t, ht⟩ := exec_completes (s := presented i) (hcfg.symm ▸ by decide)
    (hcfg.symm ▸ makeSelect_reset_wr_le i) hsel (hcfg.symm ▸ hwf)
  obtain ⟨-, -, hpending, -⟩ := exec_keeps ht
  refine ⟨?_, t, ht, hpending.trans (by cases i <;> rfl)⟩
  rw [hfetch, step_presentInstr_reset]
  exact perform_strobeOf hsel (hcfg.symm ▸ hwf)

/-- Settles O57: the refusal is the arm's own test, which a step's choice of the arm meets; the other stops are those
of the link state's range, of the append, and of the parameters. -/
theorem stopsByName : Obligations.StopsByName := by
  intro s
  refine ⟨fun i => exec_of_not_selected, step_ne_notSelected s, fun st rest hw hl hp hop => ?_,
    fun b time rest hw hgt hp => ?_, fun i hi hgt => ?_, step_bad⟩
  · rw [step_cons hw hp, hop]
    exact perform_lsm_of_not_inRange (s := present st rest s) hl
  · rw [step_cons hw hp, perform_rx]
    exact exec_decodeRxByte_of_gt (s := present _ rest s) b hgt
  · rcases hi with rfl | ⟨b, rfl, hb⟩
    · exact exec_rxbEtx_of_gt hgt
    · exact exec_rxbData_of_gt hgt hb

end Sys2Proof.Proofs
end

section
/-! Runs of several steps: their composition, and the step on each strobe (spec/00_scope.md R9). -/

namespace Sys2Proof.Machine

variable {s t u : State} {m n : Nat} {rest : List Stimulus} {b : Byte} {k : Nat}

/-! ## Composition -/

theorem core_run_succ (h : step s = .next t) (n : Nat) : core.run (n + 1) s = core.run n t := by
  simp only [Host.Core.run, show core.step s = .next t from h]

/-- A run that does not stop does not stop at its first step. -/
theorem step_next_of_core_run_succ (h : core.run (n + 1) s = .next t) : ∃ u, step s = .next u := by
  cases hs : step s with
  | next u => exact ⟨u, rfl⟩
  | fault e => simp [Host.Core.run, show core.step s = .fault e from hs] at h
  | refused e => simp [Host.Core.run, show core.step s = .refused e from hs] at h

theorem core_run_one (h : step s = .next t) : core.run 1 s = .next t := core_run_succ h 0

theorem core_run_trans (hm : core.run m s = .next t) (hn : core.run n t = .next u) : core.run (m + n) s = .next u := by
  induction m generalizing s with
  | zero =>
    cases hm
    rwa [Nat.zero_add]
  | succ m ih =>
    obtain ⟨v, hs⟩ := step_next_of_core_run_succ hm
    rw [core_run_succ hs] at hm
    rw [Nat.succ_add, core_run_succ hs, ih hm]

theorem runOutputs_succ {outs : List Outputs} (h : step s = .next t) (ht : runOutputs n t = some (outs, u)) :
    runOutputs (n + 1) s = some (t.out :: outs, u) := by
  simp only [runOutputs, h, ht, Option.map_some]

theorem runOutputs_one (h : step s = .next t) : runOutputs 1 s = some ([t.out], t) := runOutputs_succ h rfl

theorem runOutputs_add {o₁ o₂ : List Outputs} (h₁ : runOutputs m s = some (o₁, t))
    (h₂ : runOutputs n t = some (o₂, u)) : runOutputs (m + n) s = some (o₁ ++ o₂, u) := by
  induction m generalizing s o₁ with
  | zero =>
    cases h₁
    rwa [Nat.zero_add, List.nil_append]
  | succ m ih =>
    rw [Nat.succ_add]
    cases hs : step s with
    | next v =>
      simp only [runOutputs, hs, Option.map_eq_some_iff] at h₁
      obtain ⟨⟨o, t'⟩, hv, heq⟩ := h₁
      cases heq
      exact runOutputs_succ hs (ih hv)
    | fault e => simp [runOutputs, hs] at h₁
    | refused e => simp [runOutputs, hs] at h₁

/-! ## The step on a strobe -/

theorem step_lsm_send {p : List Byte} (hw : s.cfg.wf = true) (hl : s.link = .send k)
    (hp : s.cfg.initCmd[k]? = some p) (hs : s.pending = { op := .lsm, now := n } :: rest) :
    step s = .next (setLink (.wait k) (transmitted p (quiet (present { op := .lsm, now := n } rest s)))) := by
  obtain ⟨hk, -⟩ := List.getElem?_eq_some_iff.1 hp
  have hr : s.link.inRange s.cfg = true := hl ▸ decide_eq_true hk
  rw [step_cons hw hs, perform_of_decode (s := present _ rest s) (fun _ => hr) rfl (decode_link hr), present_link, hl]
  exact execLsmSend_next.2 ⟨hl, p, hp, Config.payload_le hw hp, rfl⟩

theorem step_lsm_wait (hw : s.cfg.wf = true) (hl : s.link = .wait k) (hk : k < s.cfg.nSteps)
    (hs : s.pending = { op := .lsm, now := n } :: rest) :
    step s = .next (setLink (waitTarget k (present { op := .lsm, now := n } rest s))
      (quiet (present { op := .lsm, now := n } rest s))) := by
  have hr : s.link.inRange s.cfg = true := hl ▸ decide_eq_true hk
  rw [step_cons hw hs, perform_of_decode (s := present _ rest s) (fun _ => hr) rfl (decode_link hr), present_link, hl]
  exact execLsmWait_next_setLink.2 ⟨hl, hk, rfl⟩

theorem step_rxi (hw : s.cfg.wf = true) (hs : s.pending = { op := .rxi, now := n } :: rest) :
    step s = .next (idleChecked (quiet (present { op := .rxi, now := n } rest s))) := by
  rw [step_cons hw hs]
  exact exec_rxi _

theorem step_rxi_of_other (hw : s.cfg.wf = true) (hd : s.cfg.soleByteDeferred = false)
    (hs : s.pending = { op := .rxi, now := n } :: rest) :
    step s = .next (quiet (present { op := .rxi, now := n } rest s)) := by
  rw [step_rxi hw hs, idleChecked_of_other (s := quiet (present _ rest s)) (.inl hd)]

theorem step_rxi_of_ack (hw : s.cfg.wf = true) (hd : s.cfg.soleByteDeferred = true) (h1 : s.wr = 1)
    (hack : accRead s 0 = ACK) (hs : s.pending = { op := .rxi, now := n } :: rest) :
    step s = .next (clearAcc (raiseAck (quiet (present { op := .rxi, now := n } rest s)))) := by
  rw [step_rxi hw hs, idleChecked_of_ack (s := quiet (present _ rest s)) hd h1 hack]

/-- The state with a received byte appended, its pulses low. -/
def rxAppended (b : Byte) (n : Nat) (rest : List Stimulus) (s : State) : State :=
  appended b (takeRx b (quiet (present { op := .rx b, now := n } rest s)))

theorem step_rx_data (hw : s.cfg.wf = true) (hroom : s.wr < s.cfg.cap) (hb : b ≠ ETX)
    (hn : ¬ (s.wr = 0 ∧ (b = ACK ∨ b = NAK) ∧ s.cfg.soleByteDeferred = false))
    (hs : s.pending = { op := .rx b, now := n } :: rest) : step s = .next (rxAppended b n rest s) := by
  have hack : ¬ SoleOnArrival s.cfg s.wr ACK b := fun ⟨h0, h, hd⟩ => hn ⟨h0, .inl h, hd⟩
  have hnak : ¬ SoleOnArrival s.cfg s.wr NAK b := fun ⟨h0, h, hd⟩ => hn ⟨h0, .inr h, hd⟩
  rw [step_cons hw hs, perform_rx, present_cfg, present_wr, decodeRxByte, if_neg hroom.ne, if_neg hb, if_neg hack,
    if_neg hnak]
  exact exec_rxbData_of_ordinary (s := present _ rest s) hroom hb hn

theorem step_rx_etx (hw : s.cfg.wf = true) (hroom : s.wr < s.cfg.cap)
    (hs : s.pending = { op := .rx ETX, now := n } :: rest) :
    step s = .next (endMarker (rxAppended ETX n rest s)) := by
  rw [step_cons hw hs, perform_rx, present_cfg, present_wr, decodeRxByte, if_neg hroom.ne, if_pos rfl]
  exact execRxbEtx_next.2 ⟨hroom, rfl⟩

/-- A sole acknowledgement byte recognised on arrival (R70). -/
theorem step_rx_ack (hw : s.cfg.wf = true) (h0 : s.wr = 0) (hd : s.cfg.soleByteDeferred = false)
    (hs : s.pending = { op := .rx ACK, now := n } :: rest) :
    step s = .next (clearAcc (raiseAck (rxAppended ACK n rest s))) := by
  have hcap : 0 < s.cfg.cap := Nat.lt_of_lt_of_le (by decide) (Config.five_le_cap hw)
  rw [step_cons hw hs, perform_rx, present_cfg, present_wr, decodeRxByte, if_neg (h0.trans_ne hcap.ne),
    if_neg (by decide), if_pos ⟨h0, rfl, hd⟩]
  exact execRxbAck_next.2 ⟨⟨h0, hcap, hd⟩, rfl⟩

theorem heldBytes_rxAppended (b : Byte) (n : Nat) (rest : List Stimulus) (s : State) :
    heldBytes (rxAppended b n rest s) = heldBytes s ++ [b] :=
  heldBytes_appended b (takeRx b (quiet (present { op := .rx b, now := n } rest s)))

theorem accRead_rxAppended_same (b : Byte) (n : Nat) (rest : List Stimulus) (s : State) :
    accRead (rxAppended b n rest s) s.wr = b :=
  accRead_appended_same b (takeRx b (quiet (present { op := .rx b, now := n } rest s)))

theorem heldBytes_of_wr_zero (h : s.wr = 0) : heldBytes s = [] :=
  List.length_eq_zero_iff.1 ((heldBytes_length s).trans h)

end Sys2Proof.Machine
end

section
/-! A frame fed byte by byte (spec/40_frame_codec.md, laws; spec/90_conflicts.md C1). -/

namespace Sys2Proof.Machine

variable {s t u : State} {n : Nat} {rest : List Stimulus}

/-- The registers that a byte without an event leaves. -/
structure KeepsRegisters (s t : State) : Prop where
  cfg : t.cfg = s.cfg
  link : t.link = s.link
  tContact : t.tContact = s.tContact
  ackFlag : t.ackFlag = s.ackFlag
  nakFlag : t.nakFlag = s.nakFlag

theorem KeepsRegisters.trans (h : KeepsRegisters s t) (h' : KeepsRegisters t u) : KeepsRegisters s u where
  cfg := h'.cfg.trans h.cfg
  link := h'.link.trans h.link
  tContact := h'.tContact.trans h.tContact
  ackFlag := h'.ackFlag.trans h.ackFlag
  nakFlag := h'.nakFlag.trans h.nakFlag

theorem keepsRegisters_rxAppended (b : Byte) (n : Nat) (rest : List Stimulus) (s : State) :
    KeepsRegisters s (rxAppended b n rest s) := ⟨rfl, rfl, rfl, rfl, rfl⟩

theorem rxs_cons (b : Byte) (bs : List Byte) (n : Nat) (rest : List Stimulus) :
    Trace.rxs (b :: bs) n ++ rest = { op := .rx b, now := n } :: (Trace.rxs bs n ++ rest) := rfl

theorem rxs_append (bs bs' : List Byte) (n : Nat) : Trace.rxs (bs ++ bs') n = Trace.rxs bs n ++ Trace.rxs bs' n :=
  List.flatMap_append

/-- Ordinary bytes that fit are held one after the other, in silence. The first is no reserved byte where that would be
taken on arrival. -/
theorem ordinary_bytes_held {bs : List Byte} (hw : s.cfg.wf = true) (hroom : s.wr + bs.length ≤ s.cfg.cap)
    (hetx : ETX ∉ bs)
    (hfirst : s.wr = 0 → s.cfg.soleByteDeferred = false → ∀ b ∈ bs.head?, b ≠ ACK ∧ b ≠ NAK)
    (hs : s.pending = Trace.rxs bs n ++ rest) :
    ∃ t, runOutputs bs.length s = some (List.replicate bs.length {}, t) ∧ heldBytes t = heldBytes s ++ bs ∧
      KeepsRegisters s t ∧ t.pending = rest := by
  induction bs generalizing s with
  | nil => exact ⟨s, rfl, (List.append_nil _).symm, ⟨rfl, rfl, rfl, rfl, rfl⟩, hs⟩
  | cons b bs ih =>
    rw [List.length_cons] at hroom
    rw [List.mem_cons, not_or] at hetx
    have hsole : ¬ (s.wr = 0 ∧ (b = ACK ∨ b = NAK) ∧ s.cfg.soleByteDeferred = false) := by
      rintro ⟨h0, hb, hd⟩
      obtain ⟨hack, hnak⟩ := hfirst h0 hd b rfl
      exact hb.elim hack hnak
    have hstep := step_rx_data hw (by omega) (Ne.symm hetx.1) hsole (hs.trans (rxs_cons ..))
    obtain ⟨t, hrun, hheld, hkeeps, hpending⟩ := ih (s := rxAppended b n (Trace.rxs bs n ++ rest) s) hw
      (show s.wr + 1 + bs.length ≤ s.cfg.cap by omega) hetx.2 (fun h => absurd h (Nat.succ_ne_zero _)) rfl
    refine ⟨t, runOutputs_succ hstep hrun, ?_, (keepsRegisters_rxAppended ..).trans hkeeps, hpending⟩
    rw [hheld, heldBytes_rxAppended, List.append_assoc, List.singleton_append]

/-- A frame that fits is held up to its end marker in silence, and then the end marker's arm runs. -/
theorem frame_fed {p : List Byte} (hw : s.cfg.wf = true) (hroom : s.wr + (p.length + 3) ≤ s.cfg.cap) (hetx : ETX ∉ p)
    (hs : s.pending = Trace.rxframe p n ++ rest) :
    ∃ u, runOutputs (p.length + 3) s
        = some (List.replicate (p.length + 2) ({} : Outputs) ++ [(endMarker u).out], endMarker u) ∧
      heldBytes u = heldBytes s ++ encodeFrame p ∧ KeepsRegisters s u ∧ u.pending = rest ∧ u.out = {} ∧
      u.now = s.cfg.time n := by
  have hsplit : encodeFrame p = (STX :: p ++ [cks p]) ++ [ETX] := by simp [encodeFrame]
  have hlen : (STX :: p ++ [cks p]).length = p.length + 2 := by simp
  have hstream : s.pending = Trace.rxs (STX :: p ++ [cks p]) n ++ ({ op := .rx ETX, now := n } :: rest) := by
    rw [hs, Trace.rxframe, hsplit, rxs_append, List.append_assoc]
    rfl
  have hordinary : ETX ∉ STX :: p ++ [cks p] := by
    simp [hetx, (cks_ne_etx p).symm, show ETX ≠ STX by decide]
  obtain ⟨t, hrun, hheld, hkeeps, hpending⟩ := ordinary_bytes_held hw (by rw [hlen]; omega) hordinary
    (fun _ _ b hb => by cases hb; decide) hstream
  have hwr : t.wr = s.wr + (p.length + 2) := by
    rw [← heldBytes_length, hheld, List.length_append, heldBytes_length, hlen]
  have hstep := step_rx_etx (hkeeps.cfg.symm ▸ hw) (by rw [hwr, hkeeps.cfg]; omega) hpending
  refine ⟨_, hlen ▸ runOutputs_add hrun (runOutputs_one hstep), ?_, hkeeps.trans (keepsRegisters_rxAppended ..), rfl,
    rfl, congrArg (Config.time · n) hkeeps.cfg⟩
  rw [heldBytes_rxAppended, hheld, hsplit, List.append_assoc]

theorem candidateTaken_encodeFrame (a b : Byte) (body : List Byte) (s : State) :
    candidateTaken (encodeFrame (a :: b :: body)) s = clearAcc (emitFrame ⟨a, b, body⟩ s) := by
  rw [candidateTaken, decodeFrame_encodeFrame]

/-- From an empty accumulator a frame of two bytes or more is emitted. -/
theorem frame_received {a b : Byte} {body : List Byte} (hw : s.cfg.wf = true) (h0 : s.wr = 0)
    (hlen : (a :: b :: body).length ≤ s.cfg.cap - 3) (hetx : ETX ∉ a :: b :: body)
    (hs : s.pending = Trace.rxframe (a :: b :: body) n ++ rest) :
    ∃ t, runOutputs (body.length + 5) s
        = some (List.replicate (body.length + 4) ({} : Outputs) ++ [{ frameEvt := some ⟨a, b, body⟩ }], t) ∧
      t.wr = 0 ∧ t.tContact = some (s.cfg.time n) ∧ t.ackFlag = s.ackFlag ∧ t.nakFlag = s.nakFlag ∧ t.link = s.link ∧
      t.pending = rest := by
  have hcap := Config.five_le_cap hw
  obtain ⟨u, hrun, hheld, hkeeps, hpending, hout, hnow⟩ := frame_fed hw (by omega) hetx hs
  rw [heldBytes_of_wr_zero h0, List.nil_append] at hheld
  have hend : endMarker u = clearAcc (emitFrame ⟨a, b, body⟩ u) :=
    (endMarker_of_stx hheld).trans (candidateTaken_encodeFrame a b body u)
  rw [hend] at hrun
  refine ⟨clearAcc (emitFrame ⟨a, b, body⟩ u), ?_, rfl, congrArg some hnow, hkeeps.ackFlag, hkeeps.nakFlag,
    hkeeps.link, hpending⟩
  simpa [hout] using hrun

end Sys2Proof.Machine
end

section
/-! An acknowledgement byte in front of a frame, under both readings (spec/90_conflicts.md C1). -/

namespace Sys2Proof.Machine

variable {s : State} {n : Nat} {rest : List Stimulus} {a b : Byte} {body : List Byte}

/-- Recognised on arrival, the byte is acknowledged first and the frame is fed into an empty accumulator. -/
theorem prefixed_frame_on_arrival (hw : s.cfg.wf = true) (h0 : s.wr = 0) (hd : s.cfg.soleByteDeferred = false)
    (hlen : (a :: b :: body).length ≤ s.cfg.cap - 3) (hetx : ETX ∉ a :: b :: body)
    (hs : s.pending = Trace.rxs (ACK :: encodeFrame (a :: b :: body)) n ++ rest) :
    ∃ t, runOutputs (body.length + 6) s = some ({ ackEvt := true } ::
        (List.replicate (body.length + 4) ({} : Outputs) ++ [{ frameEvt := some ⟨a, b, body⟩ }]), t) ∧
      t.wr = 0 ∧ t.ackFlag = true ∧ t.nakFlag = s.nakFlag ∧ t.tContact = some (s.cfg.time n) ∧ t.link = s.link ∧
      t.pending = rest := by
  have hstep := step_rx_ack hw h0 hd (hs.trans (rxs_cons ..))
  obtain ⟨t, hrun, hwr, hcontact, hack, hnak, hlink, hpending⟩ := frame_received
    (s := clearAcc (raiseAck (rxAppended ACK n (Trace.rxframe (a :: b :: body) n ++ rest) s))) hw rfl hlen hetx rfl
  exact ⟨t, runOutputs_succ hstep hrun, hwr, by simpa using hack, by simpa [rxAppended] using hnak, hcontact,
    by simpa [rxAppended] using hlink, hpending⟩

/-- Deferred, the byte is held, and the end marker finds it in front of the start marker (R69). -/
theorem prefixed_frame_deferred (hw : s.cfg.wf = true) (h0 : s.wr = 0) (hd : s.cfg.soleByteDeferred = true)
    (hlen : (a :: b :: body).length + 4 ≤ s.cfg.cap) (hetx : ETX ∉ a :: b :: body)
    (hs : s.pending = Trace.rxs (ACK :: encodeFrame (a :: b :: body)) n ++ rest) :
    ∃ t, runOutputs (body.length + 6) s = some (List.replicate (body.length + 5) ({} : Outputs) ++
        [{ ackEvt := true, frameEvt := some ⟨a, b, body⟩ }], t) ∧
      t.wr = 0 ∧ t.ackFlag = true ∧ t.nakFlag = s.nakFlag ∧ t.tContact = some (s.cfg.time n) ∧ t.link = s.link ∧
      t.pending = rest := by
  have hstep := step_rx_data hw (by omega) (by decide) (fun h => by simp [hd] at h) (hs.trans (rxs_cons ..))
  obtain ⟨u, hrun, hheld, hkeeps, hpending, hout, hnow⟩ := frame_fed
    (s := rxAppended ACK n (Trace.rxframe (a :: b :: body) n ++ rest) s) hw
    (show s.wr + 1 + _ ≤ s.cfg.cap by omega) hetx rfl
  rw [heldBytes_rxAppended, heldBytes_of_wr_zero h0] at hheld
  have hend : endMarker u = clearAcc (emitFrame ⟨a, b, body⟩ (raiseAck u)) :=
    (endMarker_of_ack_stx hheld).trans (candidateTaken_encodeFrame a b body (raiseAck u))
  rw [hend] at hrun
  refine ⟨clearAcc (emitFrame ⟨a, b, body⟩ (raiseAck u)), ?_, rfl, rfl, hkeeps.nakFlag, congrArg some hnow,
    hkeeps.link, hpending⟩
  refine (runOutputs_succ hstep hrun).trans ?_
  simp [hout, rxAppended, List.replicate_succ]

end Sys2Proof.Machine

namespace Sys2Proof.Proofs

open Sys2Proof.Machine

/-- Settles O27: the bytes before the end marker are held in silence, and the marker's arm decodes what ENC made. -/
theorem fedFrameIsReceived : Obligations.FedFrameIsReceived := by
  intro s a b body time rest hw h0 hlen hetx hs
  obtain ⟨t, hrun, hwr, hcontact, hregs⟩ := frame_received hw h0 hlen hetx hs
  refine ⟨_, t, hrun, ?_, ?_, hwr, hcontact, hregs⟩
  · simp [List.filterMap_append]
  · intro o ho
    rcases List.mem_append.1 ho with ho | ho
    · rw [List.eq_of_mem_replicate ho]
      exact ⟨rfl, rfl, rfl⟩
    · rw [List.mem_singleton.1 ho]
      exact ⟨rfl, rfl, rfl⟩

/-- Settles O28: under one reading the acknowledgement comes with the first byte, under the other with the end
marker. -/
theorem prefixedFrameIsReceived : Obligations.PrefixedFrameIsReceived := by
  intro s a b body time rest hw h0 hlen hdlen hetx hs
  cases hd : s.cfg.soleByteDeferred with
  | false =>
    obtain ⟨t, hrun, hregs⟩ := prefixed_frame_on_arrival hw h0 hd hlen hetx hs
    refine ⟨_, t, hrun, ?_, ?_, ?_, hregs⟩
    · simp [List.filterMap_append]
    · simp [List.filter_append]
    · simp [List.mem_replicate]
  | true =>
    obtain ⟨t, hrun, hregs⟩ := prefixed_frame_deferred hw h0 hd (hdlen hd) hetx hs
    refine ⟨_, t, hrun, ?_, ?_, ?_, hregs⟩
    · simp [List.filterMap_append]
    · simp [List.filter_append]
    · simp [List.mem_replicate]

end Sys2Proof.Proofs
end

section
/-! Runs of the Link State Machine: an acknowledgement in the same cycle, prompt acknowledgements up to IDLE, and
retries (spec/42_link_fsm.md section 3, spec/60_exceptions.md R124, R131). -/

namespace Sys2Proof.Machine

variable {s t : State} {k n : Nat} {rest : List Stimulus}

/-! ## Prompt acknowledgements -/

/-- An acknowledgement byte and the receive-idle strobe set the flag under both readings. -/
theorem ack_drained {n' : Nat} (hw : s.cfg.wf = true) (h0 : s.wr = 0)
    (hs : s.pending = { op := .rx ACK, now := n } :: { op := .rxi, now := n' } :: rest) :
    ∃ t : State, core.run 2 s = .next t ∧ t.ackFlag = true ∧ t.wr = 0 ∧ t.cfg = s.cfg ∧ t.link = s.link ∧
      t.tx = s.tx ∧ t.pending = rest := by
  cases hd : s.cfg.soleByteDeferred with
  | false =>
    obtain ⟨u, h1, hack, hwr, hcfg, hlink, htx, hpending⟩ : ∃ u, step s = .next u ∧ u.ackFlag = true ∧ u.wr = 0 ∧
        u.cfg = s.cfg ∧ u.link = s.link ∧ u.tx = s.tx ∧ u.pending = { op := .rxi, now := n' } :: rest :=
      ⟨_, step_rx_ack hw h0 hd hs, by simp [rxAppended]⟩
    have h2 := step_rxi_of_other (hcfg.symm ▸ hw) (hcfg.symm ▸ hd) hpending
    exact ⟨_, core_run_trans (core_run_one h1) (core_run_one h2), by simp [hack, hwr, hcfg, hlink, htx]⟩
  | true =>
    have hroom : s.wr < s.cfg.cap := h0.trans_lt (Nat.lt_of_lt_of_le (by decide) (Config.five_le_cap hw))
    have hread := accRead_rxAppended_same ACK n ({ op := .rxi, now := n' } :: rest) s
    obtain ⟨u, h1, hread, hwr, hcfg, hlink, htx, hpending⟩ : ∃ u, step s = .next u ∧ accRead u s.wr = ACK ∧
        u.wr = s.wr + 1 ∧ u.cfg = s.cfg ∧ u.link = s.link ∧ u.tx = s.tx ∧
        u.pending = { op := .rxi, now := n' } :: rest :=
      ⟨_, step_rx_data hw hroom (by decide) (fun h => by simp [hd] at h) hs, hread, by simp [rxAppended]⟩
    rw [h0] at hread hwr
    have h2 := step_rxi_of_ack (hcfg.symm ▸ hw) (hcfg.symm ▸ hd) hwr hread hpending
    exact ⟨_, core_run_trans (core_run_one h1) (core_run_one h2), by simp [hcfg, hlink, htx]⟩

theorem nextStep_congr (h : t.cfg = s.cfg) : nextStep k t = nextStep k s := by simp only [nextStep, h]

/-- A step-check in a wait state with the flag set advances. -/
theorem step_lsm_wait_of_ack (hw : s.cfg.wf = true) (hl : s.link = .wait k) (hk : k < s.cfg.nSteps)
    (hack : s.ackFlag = true) (hs : s.pending = { op := .lsm, now := n } :: rest) :
    step s = .next (setLink (nextStep k s) (quiet (present { op := .lsm, now := n } rest s))) := by
  have htarget : waitTarget k (present { op := .lsm, now := n } rest s) = nextStep k s :=
    waitTarget_of_advances (.inl hack)
  rw [step_lsm_wait hw hl hk hs, htarget]

/-- What a turn needs to know of the state after a send. -/
theorem exists_step_lsm_send {p : List Byte} (hw : s.cfg.wf = true) (hl : s.link = .send k)
    (hp : s.cfg.initCmd[k]? = some p) (hs : s.pending = { op := .lsm, now := n } :: rest) :
    ∃ t, step s = .next t ∧ t.link = .wait k ∧ t.cfg = s.cfg ∧ t.wr = s.wr ∧ t.tx = s.tx ++ encodeFrame p ∧
      t.pending = rest :=
  ⟨_, step_lsm_send hw hl hp hs, rfl, by simp [transmitted], by simp [transmitted], by simp [transmitted],
    by simp [transmitted]⟩

/-- One turn: the send, its acknowledgement, and the advance. -/
def promptTurn (t : Nat × Nat × Nat × Nat) : List Stimulus :=
  Trace.lsm t.1 ++ Trace.rx ACK t.2.1 ++ Trace.rxi t.2.2.1 ++ Trace.lsm t.2.2.2

theorem prompt_turn {p : List Byte} {times : Nat × Nat × Nat × Nat} (hw : s.cfg.wf = true) (hl : s.link = .send k)
    (hp : s.cfg.initCmd[k]? = some p) (h0 : s.wr = 0) (hs : s.pending = promptTurn times ++ rest) :
    ∃ t : State, core.run 4 s = .next t ∧ t.link = nextStep k s ∧ t.wr = 0 ∧ t.cfg = s.cfg ∧
      t.tx = s.tx ++ encodeFrame p ∧ t.pending = rest := by
  obtain ⟨hk, -⟩ := List.getElem?_eq_some_iff.1 hp
  obtain ⟨n₁, n₂, n₃, n₄⟩ := times
  have hqueue : s.pending = { op := .lsm, now := n₁ } :: { op := .rx ACK, now := n₂ } :: { op := .rxi, now := n₃ } ::
      { op := .lsm, now := n₄ } :: rest := hs
  obtain ⟨v, h1, hlink₁, hcfg₁, hwr₁, htx₁, hpending₁⟩ := exists_step_lsm_send hw hl hp hqueue
  obtain ⟨u, h2, hack, hwr, hcfg₂, hlink₂, htx₂, hpending₂⟩ :=
    ack_drained (hcfg₁.symm ▸ hw) (hwr₁.trans h0) hpending₁
  have hcfg : u.cfg = s.cfg := hcfg₂.trans hcfg₁
  have h3 := step_lsm_wait_of_ack (hcfg.symm ▸ hw) (hlink₂.trans hlink₁) (hcfg.symm ▸ hk) hack hpending₂
  exact ⟨_, core_run_trans (core_run_one h1) (core_run_trans h2 (core_run_one h3)), nextStep_congr hcfg, hwr, hcfg,
    htx₂.trans htx₁, rfl⟩

/-- The link state at the beginning of a turn: the send state of the step, and IDLE after the last. -/
def linkAt (c : Config) (k : Nat) : LinkState := if k < c.nSteps then .send k else .idle

theorem prompt_turns {times : List (Nat × Nat × Nat × Nat)} (hw : s.cfg.wf = true) (hl : s.link = linkAt s.cfg k)
    (h0 : s.wr = 0) (hlen : k + times.length = s.cfg.nSteps) (hs : s.pending = times.flatMap promptTurn ++ rest) :
    ∃ t : State, core.run (4 * times.length) s = .next t ∧ t.link = .idle ∧ t.pending = rest ∧
      t.tx = s.tx ++ ((s.cfg.initCmd.drop k).map encodeFrame).flatten := by
  induction times generalizing s k with
  | nil =>
    have hk : k = s.cfg.nSteps := hlen
    refine ⟨s, rfl, by rw [hl, linkAt, if_neg (by omega)], hs, ?_⟩
    rw [List.drop_eq_nil_of_le (show s.cfg.initCmd.length ≤ k from hk.ge)]
    simp
  | cons turn times ih =>
    rw [List.length_cons] at hlen ⊢
    have hk : k < s.cfg.nSteps := by omega
    rw [linkAt, if_pos hk] at hl
    rw [List.flatMap_cons, List.append_assoc] at hs
    obtain ⟨u, hrun, hlink, hwr, hcfg, htx, hpending⟩ := prompt_turn hw hl (List.getElem?_eq_getElem hk) h0 hs
    obtain ⟨t, hrest, hidle, hpend, htx'⟩ := ih (s := u) (k := k + 1) (hcfg.symm ▸ hw) (hlink.trans (hcfg ▸ rfl)) hwr
      (by rw [hcfg]; omega) hpending
    refine ⟨t, ?_, hidle, hpend, ?_⟩
    · rw [Nat.mul_succ, Nat.add_comm, core_run_trans hrun hrest]
    · rw [htx', htx, hcfg, List.drop_eq_getElem_cons hk]
      simp

/-! ## Retries -/

/-- A wait state that nothing has answered, entered by a send at time `base`. -/
structure Unanswered (k : Nat) (p : List Byte) (base : Nat) (s : State) : Prop where
  params : s.cfg.wf = true
  width : 1001 < 2 ^ s.cfg.timeW
  command : s.cfg.initCmd[k]? = some p
  link : s.link = .wait k
  ack : s.ackFlag = false
  nak : k = s.cfg.nakOkStep → s.nakFlag = false
  action : s.tAction = s.cfg.time base

/-- After 1001 ms the wait state reverts (R84). -/
theorem Unanswered.waitTarget_eq {p : List Byte} {base : Nat} (h : Unanswered k p base s)
    (hnow : s.now = s.cfg.time (base + 1001)) : waitTarget k s = .send k := by
  have hadv : ¬ Advances k s := by
    rintro (hack | ⟨hk, hnak⟩)
    · simp [h.ack] at hack
    · simp [h.nak hk] at hnak
  have hto : TimedOut s := by
    rw [TimedOut, hnow, h.action, elapsed_time s.cfg (Nat.le_add_right ..), Nat.add_sub_cancel_left,
      Nat.mod_eq_of_lt h.width]
    decide
  rw [waitTarget_of_not_advances hadv, if_pos hto]

/-- The strobes of one retry: the step-check that times out, and the one that sends. -/
def retryStrobes (time : Nat) : List Stimulus := Trace.lsm time ++ Trace.lsm time

theorem Unanswered.present {p : List Byte} {base : Nat} (h : Unanswered k p base s) (st : Stimulus)
    (rest : List Stimulus) : Unanswered k p base (present st rest s) := { h with }

/-- A send leaves the wait state unanswered: both flags are cleared and the time is stamped (R81). -/
theorem unanswered_of_send {p : List Byte} (hw : s.cfg.wf = true) (hwidth : 1001 < 2 ^ s.cfg.timeW)
    (hp : s.cfg.initCmd[k]? = some p) :
    Unanswered k p n (setLink (.wait k) (transmitted p (quiet (present { op := .lsm, now := n } rest s)))) where
  params := by simpa [transmitted] using hw
  width := by simpa [transmitted] using hwidth
  command := by simpa [transmitted] using hp
  link := rfl
  ack := rfl
  nak := fun _ => rfl
  action := by simp [transmitted]

theorem Unanswered.retry {p : List Byte} {base : Nat} (h : Unanswered k p base s)
    (hs : s.pending = retryStrobes (base + 1001) ++ rest) :
    ∃ t : State, core.run 2 s = .next t ∧ Unanswered k p (base + 1001) t ∧ t.tx = s.tx ++ encodeFrame p ∧
      t.pending = rest := by
  obtain ⟨hk, -⟩ := List.getElem?_eq_some_iff.1 h.command
  have hqueue : s.pending = { op := .lsm, now := base + 1001 } :: { op := .lsm, now := base + 1001 } :: rest := hs
  have hstep := step_lsm_wait h.params h.link hk hqueue
  rw [(h.present _ _).waitTarget_eq rfl] at hstep
  obtain ⟨u, h1, hlink, hcfg, htx, hpending⟩ : ∃ u, step s = .next u ∧ u.link = .send k ∧ u.cfg = s.cfg ∧
      u.tx = s.tx ∧ u.pending = { op := .lsm, now := base + 1001 } :: rest := ⟨_, hstep, by simp⟩
  have hw : u.cfg.wf = true := hcfg.symm ▸ h.params
  have hp : u.cfg.initCmd[k]? = some p := hcfg.symm ▸ h.command
  have h2 := step_lsm_send hw hlink hp hpending
  exact ⟨_, core_run_trans (core_run_one h1) (core_run_one h2), unanswered_of_send hw (hcfg.symm ▸ h.width) hp,
    by simp [transmitted, htx], rfl⟩

theorem Unanswered.retries {p : List Byte} {base : Nat} (h : Unanswered k p base s)
    (hs : s.pending = (List.range n).flatMap (fun j => retryStrobes (base + 1001 * (j + 1))) ++ rest) :
    ∃ t : State, core.run (2 * n) s = .next t ∧ t.link = .wait k ∧ t.pending = rest ∧
      t.tx = s.tx ++ (List.replicate n (encodeFrame p)).flatten := by
  induction n generalizing s base with
  | zero => exact ⟨s, rfl, h.link, hs, (List.append_nil _).symm⟩
  | succ n ih =>
    rw [List.range_succ_eq_map, List.flatMap_cons, List.flatMap_map, List.append_assoc] at hs
    obtain ⟨u, hrun, hu, htx, hpending⟩ := h.retry hs
    have hshift : ∀ j, base + 1001 * (j + 1 + 1) = base + 1001 + 1001 * (j + 1) := fun j => by ring
    simp only [Nat.succ_eq_add_one, hshift] at hpending
    obtain ⟨t, hrest, hlink, hpend, htx'⟩ := ih hu hpending
    refine ⟨t, ?_, hlink, hpend, ?_⟩
    · rw [Nat.mul_succ, Nat.add_comm, core_run_trans hrun hrest]
    · rw [htx', htx, List.replicate_succ, List.flatten_cons, List.append_assoc]

end Sys2Proof.Machine

namespace Sys2Proof.Proofs

open Sys2Proof.Machine

/-- Settles O56: the byte raises the flag, and the step-check of the cycle reads it. -/
theorem sameCycleByteFirst : Obligations.SameCycleByteFirst := by
  intro s k time rest hw hl hk h0 hd hs
  have hqueue : s.pending = { op := .rx ACK, now := time } :: { op := .lsm, now := time } :: rest := hs
  obtain ⟨u, h1, hack, hcfg, hlink, hpending⟩ : ∃ u, step s = .next u ∧ u.ackFlag = true ∧ u.cfg = s.cfg ∧
      u.link = s.link ∧ u.pending = { op := .lsm, now := time } :: rest :=
    ⟨_, step_rx_ack hw h0 hd hqueue, by simp [rxAppended]⟩
  have h2 := step_lsm_wait_of_ack (hcfg.symm ▸ hw) (hlink.trans hl) (hcfg.symm ▸ hk) hack hpending
  exact ⟨_, core_run_trans (core_run_one h1) (core_run_one h2), rfl, nextStep_congr hcfg⟩

/-- Settles O38: a turn takes a send state to the next, and there are as many turns as steps. -/
theorem promptAcksReachIdle : Obligations.PromptAcksReachIdle := by
  intro s times rest hw hl h0 hlen hs
  have hstart : s.link = linkAt s.cfg 0 := by rw [hl, linkAt, if_pos (Config.nSteps_pos hw)]
  rw [← hlen]
  exact prompt_turns hw hstart h0 (by rw [hlen, Nat.zero_add]) hs

/-- Settles O39: each retry leaves the wait state unanswered again, its action time 1001 ms later. -/
theorem retriesUnbounded : Obligations.RetriesUnbounded := by
  intro n s k p rest hw hl hp hack hnak hwidth haction hs
  have h : Unanswered k p s.tAction s :=
    { params := hw, width := hwidth, command := hp, link := hl, ack := hack, nak := hnak,
      action := (Nat.mod_eq_of_lt haction).symm }
  exact h.retries hs

end Sys2Proof.Proofs
end
